-- ==== Sys2Proof/Word.lean ====
section
/-!
DEFINITION. The value types of the block: bytes and words (00_scope R14), and the text source of
DRAW_TEXT (10_state R30).
-/

namespace Sys2Proof

/-- u8 (R14). -/
abbrev Byte := BitVec 8

/-- u16 (R14): coordinates, colours, device addresses. -/
abbrev Word16 := BitVec 16

/-- A 32-bit pattern, what WL writes (R94). -/
abbrev Word32 := BitVec 32

/-- A text source (R30): `Null`, text in mutable RAM, or text in read-only storage. -/
inductive TextSource where
  | null
  | runtime (bytes : List Byte)
  | static (bytes : List Byte)
  deriving DecidableEq, Repr, Inhabited

end Sys2Proof
end

