-- ==== Sys2Proof/Config.lean ====
section
/-!
DEFINITION. The configuration record CFG (00_scope R5 to R12, 10_state R24), the values the block is
configured with at reset, and the free values.

The spec gives no number for TERM, T_BYTE, CAP and DATA_DELAY (OPEN, D3, D4, D5, D8) and calls FB and SL
unspecified at reset (R22, R26). Each of these is an opaque constant here: nothing can be proved of its
value, so what is proved holds for every value.
-/

namespace Sys2Proof

/-- The terminator, exactly four bytes (R8). -/
structure Term where
  t0 : Byte
  t1 : Byte
  t2 : Byte
  t3 : Byte
  deriving DecidableEq, Repr, Inhabited

/-- LEAD: what FrameBuffer offset 0 holds (R10). -/
inductive Lead where
  | none
  | header (h : Byte)
  deriving DecidableEq, Repr, Inhabited

/-- DATA_DELAY: the waits during raw chunk data (R11). -/
inductive DataDelay where
  | perByte
  | oncePerChunk
  | noWait
  deriving DecidableEq, Repr, Inhabited

/-- STRING_BOUND: which reading of the string bound WS uses (R12, R95). -/
inductive StringBound where
  | safe
  | literal
  deriving DecidableEq, Repr, Inhabited

/-- CFG, the read-only configuration registers (R24). -/
structure Cfg where
  /-- CAP, FrameBuffer capacity in bytes (R5). -/
  cap : Nat
  /-- W, display width for clamping (R6). -/
  w : Nat
  /-- H, display height for clamping (R6). -/
  h : Nat
  /-- C, maximum chunk payload (R7). -/
  chunkMax : Nat
  /-- TERM (R8). -/
  term : Term
  /-- T_BYTE, the per-byte wait in microseconds (R9). -/
  tByte : Nat
  /-- LEAD (R10). -/
  lead : Lead
  /-- DATA_DELAY (R11). -/
  dataDelay : DataDelay
  /-- LMAX, largest admitted payload length (R12). -/
  lMax : Nat
  /-- STRING_BOUND (R12). -/
  stringBound : StringBound
  deriving DecidableEq, Repr

/-- OPEN (D5): how far the configured CAP lies above 16, the least CAP that R13 admits with LEAD = None.
DESIGN CHOICE, log 1: safe. -/
opaque Config.capBeyond16 : Nat

/-- OPEN (D3): `TERM[0]`. DESIGN CHOICE, log 1: safe. -/
opaque Config.term0 : Byte

/-- OPEN (D3): `TERM[1]`. DESIGN CHOICE, log 1: safe. -/
opaque Config.term1 : Byte

/-- OPEN (D3): `TERM[2]`. DESIGN CHOICE, log 1: safe. -/
opaque Config.term2 : Byte

/-- OPEN (D3): `TERM[3]`. DESIGN CHOICE, log 1: safe. -/
opaque Config.term3 : Byte

/-- OPEN (D4): T_BYTE. DESIGN CHOICE, log 1: safe. -/
opaque Config.tByte : Nat

/-- OPEN (D8): DATA_DELAY. DESIGN CHOICE, log 1: safe. -/
opaque Config.dataDelay : DataDelay

/-- Free value: what FrameBuffer byte `i` holds at reset (R22, U1). DESIGN CHOICE, log 2: safe. -/
opaque Config.freeFb : Nat → Byte

/-- Free value: SL.BASE at reset (R26, U2). DESIGN CHOICE, log 3: safe. -/
opaque Config.freeSlBase : Word16

/-- Free value: SL.TYPE at reset (R26, U2). DESIGN CHOICE, log 3: safe. -/
opaque Config.freeSlType : Byte

/-- Free value: SL.REM at reset (R26, U2). DESIGN CHOICE, log 3: safe. -/
opaque Config.freeSlRem : Nat

/-- Free value: SL.IDX at reset (R26, U2). DESIGN CHOICE, log 3: safe. -/
opaque Config.freeSlIdx : Nat

/-- Free value: SL.N at reset (R26, U2). DESIGN CHOICE, log 3: safe. -/
opaque Config.freeSlN : Nat

/-- The configuration the block is reset with: the spec's values, and an opaque constant for each OPEN
parameter (R4 table, R24). Log 1. -/
def Config.cfg : Cfg where
  cap := Config.capBeyond16 + 16
  w := 272
  h := 480
  chunkMax := 128
  term := ⟨Config.term0, Config.term1, Config.term2, Config.term3⟩
  tByte := Config.tByte
  lead := .none
  dataDelay := Config.dataDelay
  lMax := 32768
  stringBound := .safe

end Sys2Proof
end

