-- ==== Sys2Proof/Syntax.lean ====
section
/-!
DEFINITION. The instructions: one constructor per row of the opcode table, the seven command rows and
the ten internal operations. Operand types are those of 30_encoding R67 and of each operation's rule.
`Int32` is the spec's i32 (R14).
-/

namespace Sys2Proof

/-- One constructor per row of the opcode table, in the table's order. -/
inductive Instr where
  /-- DRAW_TEXT, opcode 0x11 (R132). -/
  | drawText (wa bs : Bool) (size : Byte) (fg bg x y : Word16) (text : TextSource)
  /-- DRAW_FLOAT, opcode 0x14 (R133). -/
  | drawFloat (bs zf zm : Bool) (size : Byte) (fg bg : Word16) (inum fnum : Byte) (x y : Word16)
      (value : Int32)
  /-- SHOW_ICON, opcode 0x23 (R134). -/
  | showIcon (lib pic : Byte) (x y : Word16)
  /-- DIRECT_ICON, opcode 0x24 (R135). -/
  | directIcon (x y addr : Word16)
  /-- AREA_COPY, opcode 0x27 (R136). -/
  | areaCopy (cache : Byte) (xs ys xe ye x y : Word16)
  /-- MEM_WRITE, opcode 0x31 (R150). The type selector 0xA5 has a row and a constructor of its own. -/
  | memWrite (type : Byte) (base : Word16) (data : List Byte)
  /-- MEM_WRITE_FLASH: opcode 0x31 with the type selector 0xA5 (R151, R75). -/
  | memWriteFlash (base : Word16) (data : List Byte)
  /-- PUTBYTE, internal (R90). -/
  | putByte (i : Nat) (v : Byte)
  /-- BEGIN, internal (R91). -/
  | beginFrame (op : Byte)
  /-- WB, internal (R92). -/
  | wb (v : Byte)
  /-- WW, internal (R93). -/
  | ww (v : Word16)
  /-- WL, internal (R94). -/
  | wl (v : Word32)
  /-- WS, internal (R95). -/
  | ws (src : TextSource)
  /-- SENDBODY, internal (R111). -/
  | sendBody
  /-- SENDTAIL, internal (R112). -/
  | sendTail
  /-- XMIT, internal (R113). -/
  | xmit
  /-- RAWOUT, internal (R114). -/
  | rawOut (data : List Byte) (j0 n : Nat)
  deriving DecidableEq, Repr

end Sys2Proof
end

