-- ==== Sys2Proof/WellFormed.lean ====
section
/-!
DEFINITION. Which terms of `Instr` are instructions. The operand types carry most of 30_encoding R67;
what is left is checked here.
-/

namespace Sys2Proof

/-- The six opcodes the block emits (R73, R74). -/
def opcodes : List Byte := [0x11#8, 0x14#8, 0x23#8, 0x24#8, 0x27#8, 0x31#8]

/-- Well-formedness.
* MEM_WRITE with the type selector 0xA5 is the row MEM_WRITE_FLASH, which has its own constructor.
* BEGIN takes an opcode of R73 (R91).
* RAWOUT reads inside its payload: `j0 + n <= len(data)` (R114). -/
def wellFormed : Instr → Bool
  | .drawText _ _ _ _ _ _ _ _ => true
  | .drawFloat _ _ _ _ _ _ _ _ _ _ _ => true
  | .showIcon _ _ _ _ => true
  | .directIcon _ _ _ => true
  | .areaCopy _ _ _ _ _ _ _ => true
  | .memWrite type _ _ => type != 0xA5#8
  | .memWriteFlash _ _ => true
  | .putByte _ _ => true
  | .beginFrame op => opcodes.contains op
  | .wb _ => true
  | .ww _ => true
  | .wl _ => true
  | .ws _ => true
  | .sendBody => true
  | .sendTail => true
  | .xmit => true
  | .rawOut data j0 n => decide (j0 + n ≤ data.length)

end Sys2Proof
end

