-- ==== Sys2Proof/Decode.lean ====
section
/-!
DEFINITION. The wire frame as an encoding: the decoder, and after it the encoder, both from the tables of
30_encoding R61 to R66. The bytes are a frame's `body ++ data` without the terminator and with
LEAD = None (R60); `encodeFrame` and `decodeFrame` add the lead byte and the terminator. The internal
operations have no encoding (R73). Log 12 says what the decoder takes and refuses.
-/

namespace Sys2Proof

/-- BE_1 (R15). -/
def be1 (v : Byte) : List Byte := [v]

/-- BE_2, most significant byte first (R15, R42). -/
def be2 (v : Word16) : List Byte := [v.extractLsb' 8 8, v.extractLsb' 0 8]

/-- BE_4, most significant byte first (R15, R42). -/
def be4 (v : Word32) : List Byte :=
  [v.extractLsb' 24 8, v.extractLsb' 16 8, v.extractLsb' 8 8, v.extractLsb' 0 8]

/-- The 16-bit value of two bytes, the first the most significant (R42). -/
def word16Of (hi lo : Byte) : Word16 := hi ++ lo

/-- The 32-bit value of four bytes, the first the most significant (R42). -/
def word32Of (b3 b2 b1 b0 : Byte) : Word32 := b3 ++ b2 ++ b1 ++ b0

/-- Why the decoder refuses a byte string. -/
inductive DecodeError where
  /-- No byte at all. -/
  | empty
  /-- Byte 0 is none of the six opcodes (R74). -/
  | unknownOpcode (op : Byte)
  /-- The body is shorter or longer than the opcode's body length (R73). -/
  | badLength (op : Byte)
  /-- A reserved flag bit is 1: the block always writes it as 0 (R76). -/
  | reservedBits (op : Byte)
  /-- The forced top bit of an id byte is 0: the block always writes it as 1 (R71, R76). -/
  | topBitClear (op : Byte)
  /-- Byte 5 of a DIRECT_ICON frame is not the fixed marker 0x80 (R64, R76). -/
  | badMarker
  /-- The text of a DRAW_TEXT frame holds a 0x00 (R78, R96: it never does). -/
  | nulInText
  /-- The type selector is neither 0x5A nor 0xA5: undefined by the source (R75). -/
  | undefinedMemType (type : Byte)
  /-- The frame does not begin with the configured lead byte (R60). -/
  | badLead
  /-- The frame does not end with the configured terminator (R60). -/
  | badTerminator
  deriving DecidableEq, Repr

/-- The bytes of a DRAW_TEXT frame after its opcode (R61, R69). -/
def decodeDrawText : List Byte → Except DecodeError Instr
  | flags :: fg1 :: fg0 :: bg1 :: bg0 :: x1 :: x0 :: y1 :: y0 :: text =>
    if flags.extractLsb' 4 2 ≠ 0#2 then .error (.reservedBits 0x11#8)
    else if text.contains 0#8 then .error .nulInText
    else .ok (.drawText (flags.getLsbD 7) (flags.getLsbD 6) ((flags.extractLsb' 0 4).setWidth 8)
      (word16Of fg1 fg0) (word16Of bg1 bg0) (word16Of x1 x0) (word16Of y1 y0) (.runtime text))
  | _ => .error (.badLength 0x11#8)

/-- The bytes of a DRAW_FLOAT frame after its opcode (R62, R70). -/
def decodeDrawFloat : List Byte → Except DecodeError Instr
  | [flags, fg1, fg0, bg1, bg0, inum, fnum, x1, x0, y1, y0, v3, v2, v1, v0] =>
    if flags.getLsbD 6 then .error (.reservedBits 0x14#8)
    else .ok (.drawFloat (flags.getLsbD 7) (flags.getLsbD 5) (flags.getLsbD 4)
      ((flags.extractLsb' 0 4).setWidth 8) (word16Of fg1 fg0) (word16Of bg1 bg0) inum fnum
      (word16Of x1 x0) (word16Of y1 y0) (Int32.ofBitVec (word32Of v3 v2 v1 v0)))
  | _ => .error (.badLength 0x14#8)

/-- The bytes of a SHOW_ICON frame after its opcode (R63). -/
def decodeShowIcon : List Byte → Except DecodeError Instr
  | [x1, x0, y1, y0, lib, pic] =>
    if lib.getLsbD 7 then
      .ok (.showIcon ((lib.extractLsb' 0 7).setWidth 8) pic (word16Of x1 x0) (word16Of y1 y0))
    else .error (.topBitClear 0x23#8)
  | _ => .error (.badLength 0x23#8)

/-- The bytes of a DIRECT_ICON frame after its opcode (R64). -/
def decodeDirectIcon : List Byte → Except DecodeError Instr
  | [x1, x0, y1, y0, marker, a1, a0] =>
    if marker = 0x80#8 then .ok (.directIcon (word16Of x1 x0) (word16Of y1 y0) (word16Of a1 a0))
    else .error .badMarker
  | _ => .error (.badLength 0x24#8)

/-- The bytes of an AREA_COPY frame after its opcode (R65). -/
def decodeAreaCopy : List Byte → Except DecodeError Instr
  | [cache, xs1, xs0, ys1, ys0, xe1, xe0, ye1, ye0, x1, x0, y1, y0] =>
    if cache.getLsbD 7 then
      .ok (.areaCopy ((cache.extractLsb' 0 7).setWidth 8) (word16Of xs1 xs0) (word16Of ys1 ys0)
        (word16Of xe1 xe0) (word16Of ye1 ye0) (word16Of x1 x0) (word16Of y1 y0))
    else .error (.topBitClear 0x27#8)
  | _ => .error (.badLength 0x27#8)

/-- The bytes of a 0x31 sub-frame after its opcode (R66, R75). -/
def decodeMemWrite : List Byte → Except DecodeError Instr
  | type :: a1 :: a0 :: data =>
    if type = 0x5A#8 then .ok (.memWrite 0x5A#8 (word16Of a1 a0) data)
    else if type = 0xA5#8 then .ok (.memWriteFlash (word16Of a1 a0) data)
    else .error (.undefinedMemType type)
  | _ => .error (.badLength 0x31#8)

/-- The decoder, total on any bytes (R73). -/
def decode : List Byte → Except DecodeError Instr
  | [] => .error .empty
  | op :: rest =>
    if op = 0x11#8 then decodeDrawText rest
    else if op = 0x14#8 then decodeDrawFloat rest
    else if op = 0x23#8 then decodeShowIcon rest
    else if op = 0x24#8 then decodeDirectIcon rest
    else if op = 0x27#8 then decodeAreaCopy rest
    else if op = 0x31#8 then decodeMemWrite rest
    else .error (.unknownOpcode op)

/-- The frame of an opcode with every operand zero: the bits the spec fixes (opcode, forced top bit, marker,
type selector 0x5A) and zeros (R61 to R66). Empty for any other byte. -/
def zeroFrame (op : Byte) : List Byte :=
  if op = 0x11#8 then [0x11#8, 0, 0, 0, 0, 0, 0, 0, 0, 0]
  else if op = 0x14#8 then [0x14#8, 0, 0, 0, 0, 0, 0, 0, 0, 0, 0, 0, 0, 0, 0, 0]
  else if op = 0x23#8 then [0x23#8, 0, 0, 0, 0, 0x80#8, 0]
  else if op = 0x24#8 then [0x24#8, 0, 0, 0, 0, 0x80#8, 0, 0]
  else if op = 0x27#8 then [0x27#8, 0x80#8, 0, 0, 0, 0, 0, 0, 0, 0, 0, 0, 0, 0]
  else if op = 0x31#8 then [0x31#8, 0x5A#8, 0, 0]
  else []

/-- The `n` low bytes of `w`, most significant first: how a table word lies in a frame (the table's note,
"MSB first"). -/
def tableBytes : Nat → Nat → List Byte
  | 0, _ => []
  | n + 1, w => BitVec.ofNat 8 (w >>> (8 * n)) :: tableBytes n w

/-- A frame image from its leading bytes: what is missing up to the opcode's body length is filled with the
bits the spec fixes and with zero operands (log 12). -/
def completeFrame (bytes : List Byte) : List Byte :=
  bytes ++ (zeroFrame (bytes.headD 0)).drop bytes.length

/-- The instruction the decoder reads from a table word (log 12). -/
def decodeTableWord (nbits w : Nat) : Option Instr :=
  match decode (completeFrame (tableBytes ((nbits + 7) / 8) w)) with
  | .ok i => some i
  | .error _ => none

/-- Bytes of a text up to its first 0x00 (R96), as a frame carries them. -/
def textOnWire : TextSource → List Byte
  | .null => []
  | .runtime bytes => bytes.takeWhile (· != 0#8)
  | .static bytes => bytes.takeWhile (· != 0#8)

/-- The encoder: the `body ++ data` bytes of a command with LEAD = None, field by field from the tables R61
to R66. It applies what the frame itself does to an operand (size mod 16, forced top bit, text up to the
first 0x00) and nothing that depends on CFG (clamping, the capacity bound, chunking). The internal
operations and the undefined type selectors have no encoding. -/
def encode : Instr → Option (List Byte)
  | .drawText wa bs size fg bg x y text =>
    some (0x11#8 :: (BitVec.ofBool wa ++ BitVec.ofBool bs ++ 0#2 ++ size.extractLsb' 0 4) ::
      (be2 fg ++ be2 bg ++ be2 x ++ be2 y ++ textOnWire text))
  | .drawFloat bs zf zm size fg bg inum fnum x y value =>
    some (0x14#8 :: (BitVec.ofBool bs ++ 0#1 ++ BitVec.ofBool zf ++ BitVec.ofBool zm ++
        size.extractLsb' 0 4) ::
      (be2 fg ++ be2 bg ++ [inum, fnum] ++ be2 x ++ be2 y ++ be4 value.toBitVec))
  | .showIcon lib pic x y => some (0x23#8 :: (be2 x ++ be2 y ++ [1#1 ++ lib.extractLsb' 0 7, pic]))
  | .directIcon x y addr => some (0x24#8 :: (be2 x ++ be2 y ++ [0x80#8] ++ be2 addr))
  | .areaCopy cache xs ys xe ye x y =>
    some (0x27#8 :: (1#1 ++ cache.extractLsb' 0 7) ::
      (be2 xs ++ be2 ys ++ be2 xe ++ be2 ye ++ be2 x ++ be2 y))
  | .memWrite type base data =>
    if type = 0x5A#8 then some (0x31#8 :: 0x5A#8 :: (be2 base ++ data)) else none
  | .memWriteFlash base data => some (0x31#8 :: 0xA5#8 :: (be2 base ++ data))
  | .putByte _ _ => none
  | .beginFrame _ => none
  | .wb _ => none
  | .ww _ => none
  | .wl _ => none
  | .ws _ => none
  | .sendBody => none
  | .sendTail => none
  | .xmit => none
  | .rawOut _ _ _ => none

/-- The lead bytes of a frame: none, or the constant `h` (R60). -/
def leadBytes : Lead → List Byte
  | .none => []
  | .header h => [h]

/-- The four terminator bytes in transmission order (R8, R43). -/
def termBytes (t : Term) : List Byte := [t.t0, t.t1, t.t2, t.t3]

/-- The whole frame on the wire: lead, body, data, terminator (R60). -/
def encodeFrame (k : Cfg) (i : Instr) : Option (List Byte) :=
  (encode i).map fun bytes => leadBytes k.lead ++ bytes ++ termBytes k.term

/-- Reads a whole frame (R60, R77): the lead byte and the terminator are checked and stripped. -/
def decodeFrame (k : Cfg) (frame : List Byte) : Except DecodeError Instr :=
  let lead := leadBytes k.lead
  if frame.take lead.length ≠ lead then .error .badLead
  else
    let rest := frame.drop lead.length
    if rest.length < 4 ∨ rest.drop (rest.length - 4) ≠ termBytes k.term then .error .badTerminator
    else decode (rest.take (rest.length - 4))

end Sys2Proof
end

