-- ==== Sys2Proof/Machine/ConfigCheck.lean ====
section
/-!
DEFINITION. The validity of a configuration (00_scope R13), checked at reset (60_exceptions R172).
-/

namespace Sys2Proof.Machine

/-- `leadLen` (R10): 0 for `None`, 1 for `Header(h)`. -/
def leadLen : Lead → Nat
  | .none => 0
  | .header _ => 1

/-- R13. That TERM has four bytes and T_BYTE is no negative number is in their types. -/
def cfgValid (k : Cfg) : Bool :=
  decide (16 + leadLen k.lead ≤ k.cap) && decide (1 ≤ k.w) && decide (k.w ≤ 65536) &&
    decide (1 ≤ k.h) && decide (k.h ≤ 65536) && decide (1 ≤ k.chunkMax) && decide (1 ≤ k.lMax)

end Sys2Proof.Machine
end

