-- ==== Sys2Proof/Machine/State.lean ====
section
/-!
DEFINITION. The state of the block (10_state R20), the reasons a run of the model can end, and reset
(70_reset_and_hazards R190).
-/

namespace Sys2Proof.Machine

/-- FrameBuffer contents written since reset, sorted by index, no index twice. An index that is not listed
has not been written: at this level it reads as no value (log 2). -/
abbrev Memory := List Host.Cell

/-- An event the block gives the transport (R29, R110). -/
inductive Event where
  | emit (b : Byte)
  | wait (us : Nat)
  deriving DecidableEq, Repr

/-- The sequencer phase (R27). -/
inductive Phase where
  | idle
  | busy
  deriving DecidableEq, Repr

/-- What the sticky mark `fault` records (R28, R171). -/
inductive FaultMark where
  /-- A primitive write to FrameBuffer index `i >= CAP`. -/
  | overrun (i : Nat)
  deriving DecidableEq, Repr

/-- What the sticky mark `refused` records (R28, R172). -/
inductive RefusedMark where
  | rfConfig
  | rfMemType
  | rfLength
  deriving DecidableEq, Repr

/-- SL, the slicer registers (R26). -/
structure Slicer where
  /-- SL.BASE: destination base address of the whole payload. -/
  base : Word16
  /-- SL.TYPE: memory-write type selector. -/
  type : Byte
  /-- SL.REM: payload bytes not yet sent. -/
  rem : Nat
  /-- SL.IDX: index of the current chunk. -/
  idx : Nat
  /-- SL.N: payload length of the current chunk. -/
  n : Nat
  deriving DecidableEq, Repr

/-- A command record (30_encoding R67): all that the host can issue. -/
inductive Command where
  | drawText (wa bs : Bool) (size : Byte) (fg bg x y : Word16) (text : TextSource)
  | drawFloat (bs zf zm : Bool) (size : Byte) (fg bg : Word16) (inum fnum : Byte) (x y : Word16)
      (value : Int32)
  | showIcon (lib pic : Byte) (x y : Word16)
  | directIcon (x y addr : Word16)
  | areaCopy (cache : Byte) (xs ys xe ye x y : Word16)
  | memWrite (type : Byte) (base : Word16) (data : List Byte)
  deriving DecidableEq, Repr

/-- The state record of R20, and the command port. -/
structure State where
  /-- FB, the FrameBuffer (R22). -/
  fb : Memory
  /-- c, the write cursor (R23). -/
  c : Nat
  /-- CFG, read-only (R24). -/
  cfg : Cfg
  /-- STATUS (R25). -/
  status : Byte
  /-- SL (R26). -/
  sl : Slicer
  /-- phase (R27). -/
  phase : Phase
  /-- fault, sticky (R28). -/
  fault : Option FaultMark
  /-- refused, sticky (R28). -/
  refused : Option RefusedMark
  /-- trace, the events since reset, oldest first (R29). -/
  trace : List Event
  /-- The commands issued and not yet accepted, oldest first (R21, R194). The model's own field, log 5. -/
  port : List Command
  deriving DecidableEq, Repr

/-- The model stops. All three lie outside what the spec's rules admit, and no command reaches them under a
valid configuration; the stops the spec does describe are recorded in `State.fault` and `State.refused`. -/
inductive Fault where
  /-- SENDBODY would read the FrameBuffer at index `i >= CAP`, which does not exist (R22, R111). Raised by
  SENDBODY and XMIT. Safe (log 9). -/
  | readPastBuffer (i : Nat)
  /-- RAWOUT would read its payload at offset `i`, past the last byte (R114). Raised by RAWOUT. Safe
  (log 10). -/
  | payloadReadPastEnd (i : Nat)
  /-- The chunk loop would never end: C = 0 (D7, refused by R13 at reset). Raised by MEM_WRITE. Safe
  (log 11). -/
  | chunkLoopEndless
  deriving DecidableEq, Repr

/-- The model gives no meaning. -/
inductive Refusal where
  /-- An instruction without a meaning in the model. No arm of exec answers it. Safe. -/
  | notModelled (mnemonic : String)
  deriving DecidableEq, Repr

/-- SL at reset: any value (R26, R190), the free values of Config. Log 3. -/
def Slicer.reset : Slicer where
  base := Config.freeSlBase
  type := Config.freeSlType
  rem := Config.freeSlRem
  idx := Config.freeSlIdx
  n := Config.freeSlN

/-- What reset writes to FB: `FB[0] <- h` under `LEAD = Header(h)`, nothing else (R190). A buffer of no
cells takes no byte (log 19). -/
def resetFb (k : Cfg) : Memory :=
  match k.lead with
  | .none => []
  | .header h => if 0 < k.cap then [(0, h)] else []

/-- Reset(CFG) (R190): the block configured with `k`. -/
def State.resetWith (k : Cfg) : State where
  fb := resetFb k
  c := 0
  cfg := k
  status := 0
  sl := Slicer.reset
  phase := .idle
  fault := none
  refused := if cfgValid k then none else some .rfConfig
  trace := []
  port := []

/-- The machine right after reset, with the configuration `Config.cfg` (log 1). -/
def State.reset : State := State.resetWith Config.cfg

end Sys2Proof.Machine
end

