-- ==== Sys2Proof/Machine/Ops.lean ====
section
/-!
DEFINITION. The named operations: FrameBuffer memory, register updates, the pseudocode primitives of
00_scope R16, the sequencing of R17, recording a fault or a refusal (60_exceptions R171, R172, R175), and
the internal operations that have no operand of their own to compute.
-/

namespace Sys2Proof.Machine

/-! ### FrameBuffer memory -/

/-- The byte written at index `i`, or no value when nothing has been written there. -/
def Memory.read? : Memory → Nat → Option Byte
  | [], _ => none
  | (a, b) :: m, i => if a = i then some b else Memory.read? m i

/-- Writes one byte, keeping the list sorted and without repeats. -/
def Memory.write : Memory → Nat → Byte → Memory
  | [], i, v => [(i, v)]
  | (a, b) :: m, i, v =>
    if i < a then (i, v) :: (a, b) :: m
    else if i = a then (i, v) :: m
    else (a, b) :: Memory.write m i v

/-- Writes consecutive bytes from index `i` up. -/
def Memory.writeAll : Memory → Nat → List Byte → Memory
  | m, _, [] => m
  | m, i, b :: bs => Memory.writeAll (m.write i b) (i + 1) bs

/-- The canonical form: indices strictly rising. -/
def Memory.wf : Memory → Bool
  | [] => true
  | (a, _) :: m =>
    (match m with
      | [] => true
      | (b, _) :: _ => decide (a < b)) && Memory.wf m

/-- Every listed index is one of the `cap` cells of the buffer (R22). -/
def Memory.below (cap : Nat) : Memory → Bool
  | [] => true
  | (a, _) :: m => decide (a < cap) && Memory.below cap m

/-- `FB[i]` (R16). A cell nothing has written since reset holds the free value of R22 and U1. -/
def fbByte (s : State) (i : Nat) : Byte := (s.fb.read? i).getD (Config.freeFb i)

/-! ### Register updates -/

def State.setFb (s : State) (m : Memory) : State := { s with fb := m }
def State.setC (s : State) (n : Nat) : State := { s with c := n }
def State.setStatus (s : State) (v : Byte) : State := { s with status := v }
def State.setSl (s : State) (r : Slicer) : State := { s with sl := r }
def State.setPhase (s : State) (p : Phase) : State := { s with phase := p }
def State.setFault (s : State) (f : Option FaultMark) : State := { s with fault := f }
def State.setRefused (s : State) (r : Option RefusedMark) : State := { s with refused := r }
def State.setTrace (s : State) (es : List Event) : State := { s with trace := es }
def State.setPort (s : State) (cs : List Command) : State := { s with port := cs }

/-- A mark is set: nothing executes and no command is accepted until reset (R28, R176). -/
def State.stopped (s : State) : Bool := s.fault.isSome || s.refused.isSome

/-- The acceptance conditions (R194): `phase = Idle`, `fault = None`, `refused = None`. -/
def State.accepts (s : State) : Bool := decide (s.phase = .idle) && !s.stopped

/-! ### Sequencing (R17) -/

/-- How a piece of pseudocode ends. -/
inductive Flow where
  /-- The next statement runs. -/
  | go (s : State)
  /-- A `raise` or `refuse` has ended the command; the mark is recorded in the state. -/
  | stop (s : State)
  /-- The model stops: an access the rules exclude. -/
  | bad (f : Fault)
  deriving DecidableEq, Repr

/-- Runs `f` after a flow that goes on. -/
def Flow.bind (x : Flow) (f : State → Flow) : Flow :=
  match x with
  | .go s => f s
  | .stop s => .stop s
  | .bad e => .bad e

/-- Statements from top to bottom (R17). -/
def runAll : List (State → Flow) → State → Flow
  | [], s => .go s
  | f :: fs, s => (f s).bind (runAll fs)

/-! ### Stops (R171, R172, R175) -/

/-- Code of a fault mark (R171). -/
def faultCode : FaultMark → Nat
  | .overrun _ => 1

/-- Code of a refusal mark (R172). -/
def refusedCode : RefusedMark → Nat
  | .rfConfig => 1
  | .rfMemType => 2
  | .rfLength => 3

/-- `raise Fault(Overrun, i)`: the mark is set and the command ends; trace and phase stay (R171, R175). -/
def raiseOverrun (i : Nat) (s : State) : Flow := .stop (s.setFault (some (.overrun i)))

/-- `refuse(reason)`: the mark is set and the command ends; trace and phase stay (R172, R175). There is no
return from either stop but reset (R176). -/
def refuse (r : RefusedMark) (s : State) : Flow := .stop (s.setRefused (some r))

/-! ### The single write primitive and the integer writers -/

/-- `PutByte(i, v)`, the only write to FB (R90). -/
def putByte (i : Nat) (v : Byte) (s : State) : Flow :=
  if s.cfg.cap ≤ i then raiseOverrun i s else .go (s.setFb (s.fb.write i v))

/-- `MemWrite(i, n, v)` on the bytes of `v`: PutByte at rising indices (R16). -/
def putBytes : Nat → List Byte → State → Flow
  | _, [], s => .go s
  | i, b :: bs, s => (putByte i b s).bind (putBytes (i + 1) bs)

/-- The common contract of the writers (40_primitive_writers section 3): the bytes go to `c + 1` up, then
the cursor advances by their number. -/
def appendBytes (bs : List Byte) (s : State) : Flow :=
  (putBytes (s.c + 1) bs s).bind fun t => .go (t.setC (t.c + bs.length))

/-- WB (R92). -/
def wb (v : Byte) (s : State) : Flow := appendBytes (be1 v) s

/-- WW (R93). -/
def ww (v : Word16) (s : State) : Flow := appendBytes (be2 v) s

/-- WL (R94). -/
def wl (v : Word32) (s : State) : Flow := appendBytes (be4 v) s

/-- BEGIN (R91). -/
def beginFrame (op : Byte) (s : State) : Flow :=
  match s.cfg.lead with
  | .none => putByte 0 op (s.setC 0)
  | .header _ => wb op (s.setC 0)

/-! ### The transport (R110) -/

/-- Appends events to the trace: `Emit` and `Wait` (R16, R29). -/
def State.append (s : State) (es : List Event) : State := s.setTrace (s.trace ++ es)

/-- Each byte followed by one wait (R111, R112, R193). -/
def paced (us : Nat) (bs : List Byte) : List Event := bs.flatMap fun b => [.emit b, .wait us]

/-- The byte projection: the trace without its waits (R115). -/
def byteProjection : List Event → List Byte
  | [] => []
  | .emit b :: es => b :: byteProjection es
  | .wait _ :: es => byteProjection es

/-- SENDBODY (R111). An index `>= CAP` does not exist (log 9). -/
def sendBody (s : State) : Flow :=
  if s.cfg.cap < s.c + 1 then .bad (.readPastBuffer s.cfg.cap)
  else .go ((s.setC (s.c + 1)).append (paced s.cfg.tByte ((List.range (s.c + 1)).map (fbByte s))))

/-- SENDTAIL (R112). -/
def sendTail (s : State) : Flow := .go (s.append (paced s.cfg.tByte (termBytes s.cfg.term)))

/-- XMIT (R113). -/
def xmit (s : State) : Flow := runAll [sendBody, sendTail] s

/-- The events of raw payload bytes under DATA_DELAY (R114, R11). -/
def rawEvents (k : Cfg) (bs : List Byte) : List Event :=
  match k.dataDelay with
  | .perByte => paced k.tByte bs
  | .oncePerChunk => bs.map .emit ++ [.wait k.tByte]
  | .noWait => bs.map .emit

/-- `MemRead(src, j, n)`: `n` bytes of an operand list from offset `j`, or no value when they do not all
exist (R16). -/
def memRead? (src : List Byte) (j n : Nat) : Option (List Byte) :=
  let bs := (src.drop j).take n
  if bs.length = n then some bs else none

/-- RAWOUT (R114). A read past the payload is excluded by the rule's operands (log 10). -/
def rawOut (data : List Byte) (j0 n : Nat) (s : State) : Flow :=
  match memRead? data j0 n with
  | some bs => .go (s.append (rawEvents s.cfg bs))
  | none => .bad (.payloadReadPastEnd data.length)

/-! ### Running an instruction -/

/-- An internal operation on its own. Nothing executes after a stop (R176, log 7). -/
def runInternal (op : State → Flow) (s : State) : Host.Outcome State Fault Refusal :=
  if s.stopped then .next s
  else match op s with
    | .go t => .next t
    | .stop t => .next t
    | .bad f => .fault f

/-- Acceptance of a command: `phase <- Busy`, `STATUS <- 0` (R130). -/
def begun (s : State) : State := (s.setPhase .busy).setStatus 0#8

/-- The envelope of every command (R130). A command that is not accepted is held: nothing happens (R194,
log 8). -/
def runCommand (body : State → Flow) (s : State) : Host.Outcome State Fault Refusal :=
  if s.accepts then
    match body (begun s) with
    | .go t => .next (t.setPhase .idle)
    | .stop t => .next t
    | .bad f => .fault f
  else .next s

end Sys2Proof.Machine
end

