-- ==== Sys2Proof/Machine/CommandPort.lean ====
section
/-!
DEFINITION. The command port and the host's moves (30_encoding R67, 60_exceptions R180): issuing a
command, observing the block, and the textual syntax of commands (30_encoding R79).
-/

namespace Sys2Proof.Machine

/-- The instruction a command record asks for. MEM_WRITE with the type selector 0xA5 is the table's row
MEM_WRITE_FLASH (R151). -/
def commandInstr : Command → Instr
  | .drawText wa bs size fg bg x y text => .drawText wa bs size fg bg x y text
  | .drawFloat bs zf zm size fg bg inum fnum x y value =>
    .drawFloat bs zf zm size fg bg inum fnum x y value
  | .showIcon lib pic x y => .showIcon lib pic x y
  | .directIcon x y addr => .directIcon x y addr
  | .areaCopy cache xs ys xe ye x y => .areaCopy cache xs ys xe ye x y
  | .memWrite type base data =>
    if type = 0xA5#8 then .memWriteFlash base data else .memWrite type base data

/-- The command record that asks for an instruction; the internal operations have none (R73, R74). -/
def instrCommand? : Instr → Option Command
  | .drawText wa bs size fg bg x y text => some (.drawText wa bs size fg bg x y text)
  | .drawFloat bs zf zm size fg bg inum fnum x y value =>
    some (.drawFloat bs zf zm size fg bg inum fnum x y value)
  | .showIcon lib pic x y => some (.showIcon lib pic x y)
  | .directIcon x y addr => some (.directIcon x y addr)
  | .areaCopy cache xs ys xe ye x y => some (.areaCopy cache xs ys xe ye x y)
  | .memWrite type base data => some (.memWrite type base data)
  | .memWriteFlash base data => some (.memWrite 0xA5#8 base data)
  | .putByte _ _ => none
  | .beginFrame _ => none
  | .wb _ => none
  | .ww _ => none
  | .wl _ => none
  | .ws _ => none
  | .sendBody => none
  | .sendTail => none
  | .xmit => none
  | .rawOut _ _ _ => none

/-- The host issues a command: it joins the requests not yet accepted (R180, R194). -/
def issue (cmd : Command) (s : State) : State := s.setPort (s.port ++ [cmd])

/-- What the host can observe (R27, R179, R180). -/
structure HostView where
  /-- Whether a new command can be accepted, the only way `phase` is seen (R27). -/
  canAccept : Bool
  /-- STATUS (R25, R180). DEDUCED, log 20: readable after a stop as well. -/
  status : Byte
  fault : Option FaultMark
  refused : Option RefusedMark
  deriving DecidableEq, Repr

/-- The host observes the block (R180): STATUS and the marks whatever the phase, and the phase as whether a
command can be accepted (R27). -/
def hostView (s : State) : HostView where
  canAccept := s.accepts
  status := s.status
  fault := s.fault
  refused := s.refused

/-- A flag operand in the textual syntax. -/
def showBit (b : Bool) : String := if b then "1" else "0"

/-- A byte list in the textual syntax, decimal (R79). -/
def showBytes (bytes : List Byte) : String :=
  "[" ++ ", ".intercalate (bytes.map fun b => toString b.toNat) ++ "]"

/-- Bytes as characters: ASCII codes (R79). How a quote, a control byte or a byte from 0x80 up is written the
spec leaves open: here each byte is the character of that code, unescaped. DESIGN CHOICE, log 21. -/
def showChars (bytes : List Byte) : String :=
  "\"" ++ String.ofList (bytes.map fun b => Char.ofNat b.toNat) ++ "\""

/-- A text source in the textual syntax (R79). -/
def showText : TextSource → String
  | .null => "null"
  | .runtime bytes => showChars bytes
  | .static bytes => "s" ++ showChars bytes

/-- A command in the textual syntax of R79. -/
def showCommand : Command → String
  | .drawText wa bs size fg bg x y text =>
    "TEXT " ++ ", ".intercalate [showBit wa, showBit bs, toString size.toNat, toString fg.toNat,
      toString bg.toNat, toString x.toNat, toString y.toNat, showText text]
  | .drawFloat bs zf zm size fg bg inum fnum x y value =>
    "FLOAT " ++ ", ".intercalate [showBit bs, showBit zf, showBit zm, toString size.toNat,
      toString fg.toNat, toString bg.toNat, toString inum.toNat, toString fnum.toNat,
      toString x.toNat, toString y.toNat, toString value.toInt]
  | .showIcon lib pic x y =>
    "ICON " ++ ", ".intercalate [toString lib.toNat, toString pic.toNat, toString x.toNat,
      toString y.toNat]
  | .directIcon x y addr =>
    "DICON " ++ ", ".intercalate [toString x.toNat, toString y.toNat, toString addr.toNat]
  | .areaCopy cache xs ys xe ye x y =>
    "COPY " ++ ", ".intercalate [toString cache.toNat, toString xs.toNat, toString ys.toNat,
      toString xe.toNat, toString ye.toNat, toString x.toNat, toString y.toNat]
  | .memWrite type base data =>
    "MEMW " ++ ", ".intercalate [toString type.toNat, toString base.toNat, showBytes data]

end Sys2Proof.Machine
end

