-- ==== Sys2Proof/Machine/Flags.lean ====
section
/-!
DEFINITION. Flag computations: the STATUS bits (10_state R25) and the flag bytes of DRAW_TEXT and
DRAW_FLOAT (30_encoding R69, R70).
-/

namespace Sys2Proof.Machine

/-- STATUS bit 0, TRUNC (R25). -/
def truncBit : Byte := 0x01#8

/-- STATUS bit 1, CLAMPX (R25). -/
def clampXBit : Byte := 0x02#8

/-- STATUS bit 2, CLAMPY (R25). -/
def clampYBit : Byte := 0x04#8

/-- Sets a STATUS bit, leaving the others. -/
def setStatusBit (bit : Byte) (s : State) : State := s.setStatus (s.status ||| bit)

/-- A flag operand as the number 0 or 1 (R14). -/
def bit (b : Bool) : Byte := if b then 1#8 else 0#8

/-- The low four bits of a font size: `size mod 16` (R69, R70). -/
def sizeBits (size : Byte) : Byte := size % 16#8

/-- The DRAW_TEXT flag byte (R69). PRESUMED bit positions (D11), log 14. -/
def textFlags (wa bs : Bool) (size : Byte) : Byte :=
  (bit wa <<< 7) ||| (bit bs <<< 6) ||| sizeBits size

/-- The DRAW_FLOAT flag byte (R70). PRESUMED bit positions (D11), log 14. -/
def floatFlags (bs zf zm : Bool) (size : Byte) : Byte :=
  (bit bs <<< 7) ||| (bit zf <<< 5) ||| (bit zm <<< 4) ||| sizeBits size

end Sys2Proof.Machine
end

