-- ==== Sys2Proof/Machine/Operands.lean ====
section
/-!
DEFINITION. Operand forms: clamped coordinates (42_command_encoders R131), forced top bits (30_encoding
R71), the signed value (R68), text sources and the string writer (40_primitive_writers R95, R96).
-/

namespace Sys2Proof.Machine

/-- The x coordinate `clampX` returns (R131). With W = 0 the bound is 0 (log 17). -/
def clampedX (k : Cfg) (x : Word16) : Word16 :=
  if x.toNat > k.w - 1 then BitVec.ofNat 16 (k.w - 1) else x

/-- The y coordinate `clampY` returns (R131). With H = 0 the bound is 0 (log 17). -/
def clampedY (k : Cfg) (y : Word16) : Word16 :=
  if y.toNat > k.h - 1 then BitVec.ofNat 16 (k.h - 1) else y

/-- What `clampX` does to STATUS (R131). -/
def markClampX (x : Word16) (s : State) : State :=
  if x.toNat > s.cfg.w - 1 then setStatusBit clampXBit s else s

/-- What `clampY` does to STATUS (R131). -/
def markClampY (y : Word16) (s : State) : State :=
  if y.toNat > s.cfg.h - 1 then setStatusBit clampYBit s else s

/-- An id byte with its top bit forced set (R71). -/
def forceTop (id : Byte) : Byte := 0x80#8 ||| id

/-- `twos_32` (R14, R68). -/
def twos32 (v : Int32) : Word32 := BitVec.ofInt 32 v.toInt

/-- `textLen` (R96): the bytes before the first 0x00, or all of them. -/
def textLen : List Byte → Nat
  | [] => 0
  | b :: bs => if b = 0#8 then 0 else textLen bs + 1

/-- The list inside a text source; `Null` has no bytes (R30, R95). -/
def sourceBytes : TextSource → List Byte
  | .null => []
  | .runtime bytes => bytes
  | .static bytes => bytes

/-- How many bytes the string writer may copy from cursor `c` (R95, C1). -/
def remaining (k : Cfg) (c : Nat) : Nat :=
  match k.stringBound with
  | .safe => k.cap - 1 - c
  | .literal => k.cap - c

/-- WS (R95). -/
def ws (src : TextSource) (s : State) : Flow :=
  let bytes := sourceBytes src
  let len := textLen bytes
  if len = 0 then .go s
  else
    let n := min (remaining s.cfg s.c) len
    (appendBytes (bytes.take n) s).bind fun t =>
      .go (if n < len then setStatusBit truncBit t else t)

end Sys2Proof.Machine
end

