-- ==== Sys2Proof/Machine/Encoders.lean ====
section
/-!
DEFINITION. The meanings of the five drawing commands (42_command_encoders): BEGIN, the parameter writes
in the order of the rule, XMIT, inside the envelope of R130.
-/

namespace Sys2Proof.Machine

/-- DRAW_TEXT (R132). -/
def execDrawText (wa bs : Bool) (size : Byte) (fg bg x y : Word16) (text : TextSource) (s : State) :
    Host.Outcome State Fault Refusal :=
  runCommand (runAll [beginFrame 0x11#8, wb (textFlags wa bs size), ww fg, ww bg, ww x, ww y, ws text,
    xmit]) s

/-- DRAW_FLOAT (R133). -/
def execDrawFloat (bs zf zm : Bool) (size : Byte) (fg bg : Word16) (inum fnum : Byte) (x y : Word16)
    (value : Int32) (s : State) : Host.Outcome State Fault Refusal :=
  runCommand (runAll [beginFrame 0x14#8, wb (floatFlags bs zf zm size), ww fg, ww bg, wb inum, wb fnum,
    ww x, ww y, wl (twos32 value), xmit]) s

/-- The statements of SHOW_ICON and DIRECT_ICON: both coordinates are clamped first (R131), then the frame
is built with them. -/
def withClamped (x y : Word16) (frame : Word16 → Word16 → List (State → Flow)) (s : State) : Flow :=
  runAll (frame (clampedX s.cfg x) (clampedY s.cfg y)) (markClampY y (markClampX x s))

/-- SHOW_ICON (R134). -/
def execShowIcon (lib pic : Byte) (x y : Word16) (s : State) : Host.Outcome State Fault Refusal :=
  runCommand (withClamped x y fun x' y' =>
    [beginFrame 0x23#8, ww x', ww y', wb (forceTop lib), wb pic, xmit]) s

/-- DIRECT_ICON (R135). -/
def execDirectIcon (x y addr : Word16) (s : State) : Host.Outcome State Fault Refusal :=
  runCommand (withClamped x y fun x' y' =>
    [beginFrame 0x24#8, ww x', ww y', wb 0x80#8, ww addr, xmit]) s

/-- AREA_COPY (R136). -/
def execAreaCopy (cache : Byte) (xs ys xe ye x y : Word16) (s : State) :
    Host.Outcome State Fault Refusal :=
  runCommand (runAll [beginFrame 0x27#8, wb (forceTop cache), ww xs, ww ys, ww xe, ww ye, ww x, ww y,
    xmit]) s

end Sys2Proof.Machine
end

