-- ==== Sys2Proof/Machine/MemWriter.lean ====
section
/-!
DEFINITION. The chunked memory writer (43_chunked_memory_writer): MEM_WRITE and the refused
MEM_WRITE_FLASH.
-/

namespace Sys2Proof.Machine

/-- Entry of the slicer: TYPE, BASE, REM and IDX are written (R150). -/
def slicerEntry (type : Byte) (base : Word16) (len : Nat) (s : State) : State :=
  s.setSl { s.sl with type := type, base := base, rem := len, idx := 0 }

/-- `SL.N <- min(C, SL.REM)` (R152). -/
def slicerChunk (s : State) : State := s.setSl { s.sl with n := min s.cfg.chunkMax s.sl.rem }

/-- The end of an iteration: `SL.REM <- SL.REM - SL.N`, `SL.IDX <- SL.IDX + 1` (R150). -/
def slicerAdvance (s : State) : State :=
  s.setSl { s.sl with rem := s.sl.rem - s.sl.n, idx := s.sl.idx + 1 }

/-- The destination address of the current chunk, `(SL.BASE + SL.IDX * C) mod 2^16` (R153). -/
def chunkAddr (s : State) : Word16 :=
  BitVec.ofNat 16 (s.sl.base.toNat + s.sl.idx * s.cfg.chunkMax)

/-- One iteration of the chunk loop (R150). -/
def sendChunk (data : List Byte) : State → Flow :=
  runAll [fun s => .go (slicerChunk s),
    beginFrame 0x31#8,
    fun s => wb s.sl.type s,
    fun s => ww (chunkAddr s) s,
    sendBody,
    fun s => rawOut data (s.sl.idx * s.cfg.chunkMax) s.sl.n s,
    sendTail,
    fun s => .go (slicerAdvance s)]

/-- `while SL.REM > 0` (R150), for at most as many iterations as the first argument says. The payload length
suffices: every iteration sends a byte unless C = 0, where the loop has no end (log 11). -/
def chunkLoop (data : List Byte) : Nat → State → Flow
  | 0, s => if s.sl.rem = 0 then .go s else .bad .chunkLoopEndless
  | fuel + 1, s => if s.sl.rem = 0 then .go s else (sendChunk data s).bind (chunkLoop data fuel)

/-- The rule of MEM_WRITE for any type selector (R150, R151); RfMemType is checked before RfLength (R174). -/
def memWriteRule (type : Byte) (base : Word16) (data : List Byte) (s : State) : Flow :=
  if type ≠ 0x5A#8 then refuse .rfMemType s
  else if s.cfg.lMax < data.length then refuse .rfLength s
  else chunkLoop data data.length (slicerEntry type base data.length s)

/-- MEM_WRITE (R150). -/
def execMemWrite (type : Byte) (base : Word16) (data : List Byte) (s : State) :
    Host.Outcome State Fault Refusal :=
  runCommand (memWriteRule type base data) s

/-- MEM_WRITE_FLASH: MEM_WRITE with the type selector 0xA5 (R151, R75). Log 16. -/
def execMemWriteFlash (base : Word16) (data : List Byte) (s : State) :
    Host.Outcome State Fault Refusal :=
  runCommand (memWriteRule 0xA5#8 base data) s

end Sys2Proof.Machine
end

