-- ==== Sys2Proof/Machine/PrimitiveWriters.lean ====
section
/-!
DEFINITION. The meanings of the primitive writers (40_primitive_writers), each an instruction of its own
(log 18).
-/

namespace Sys2Proof.Machine

/-- PUTBYTE (R90). -/
def execPutByte (i : Nat) (v : Byte) (s : State) : Host.Outcome State Fault Refusal :=
  runInternal (putByte i v) s

/-- BEGIN (R91). -/
def execBeginFrame (op : Byte) (s : State) : Host.Outcome State Fault Refusal :=
  runInternal (beginFrame op) s

/-- WB (R92). -/
def execWb (v : Byte) (s : State) : Host.Outcome State Fault Refusal := runInternal (wb v) s

/-- WW (R93). -/
def execWw (v : Word16) (s : State) : Host.Outcome State Fault Refusal := runInternal (ww v) s

/-- WL (R94). -/
def execWl (v : Word32) (s : State) : Host.Outcome State Fault Refusal := runInternal (wl v) s

/-- WS (R95). -/
def execWs (src : TextSource) (s : State) : Host.Outcome State Fault Refusal :=
  runInternal (ws src) s

end Sys2Proof.Machine
end

