-- ==== Sys2Proof/Machine/Transmitter.lean ====
section
/-!
DEFINITION. The meanings of the frame transmitter's operations (41_frame_transmitter), each an instruction of
its own (log 18).
-/

namespace Sys2Proof.Machine

/-- SENDBODY (R111). -/
def execSendBody (s : State) : Host.Outcome State Fault Refusal := runInternal sendBody s

/-- SENDTAIL (R112). -/
def execSendTail (s : State) : Host.Outcome State Fault Refusal := runInternal sendTail s

/-- XMIT (R113). -/
def execXmit (s : State) : Host.Outcome State Fault Refusal := runInternal xmit s

/-- RAWOUT (R114). -/
def execRawOut (data : List Byte) (j0 n : Nat) (s : State) : Host.Outcome State Fault Refusal :=
  runInternal (rawOut data j0 n) s

end Sys2Proof.Machine
end

