-- ==== Sys2Proof/Machine/Dispatch.lean ====
section
/-!
DEFINITION. One arm per constructor of Instr, each a direct call of its meaning.
-/

namespace Sys2Proof.Machine

def exec (i : Instr) (s : State) : Host.Outcome State Fault Refusal :=
  match i with
  | .drawText wa bs size fg bg x y text => Sys2Proof.Machine.execDrawText wa bs size fg bg x y text s
  | .drawFloat bs zf zm size fg bg inum fnum x y value => Sys2Proof.Machine.execDrawFloat bs zf zm size fg bg inum fnum x y value s
  | .showIcon lib pic x y => Sys2Proof.Machine.execShowIcon lib pic x y s
  | .directIcon x y addr => Sys2Proof.Machine.execDirectIcon x y addr s
  | .areaCopy cache xs ys xe ye x y => Sys2Proof.Machine.execAreaCopy cache xs ys xe ye x y s
  | .memWrite type base data => Sys2Proof.Machine.execMemWrite type base data s
  | .memWriteFlash base data => Sys2Proof.Machine.execMemWriteFlash base data s
  | .putByte i0 v => Sys2Proof.Machine.execPutByte i0 v s
  | .beginFrame op => Sys2Proof.Machine.execBeginFrame op s
  | .wb v => Sys2Proof.Machine.execWb v s
  | .ww v => Sys2Proof.Machine.execWw v s
  | .wl v => Sys2Proof.Machine.execWl v s
  | .ws src => Sys2Proof.Machine.execWs src s
  | .sendBody => Sys2Proof.Machine.execSendBody s
  | .sendTail => Sys2Proof.Machine.execSendTail s
  | .xmit => Sys2Proof.Machine.execXmit s
  | .rawOut data j0 n => Sys2Proof.Machine.execRawOut data j0 n s

end Sys2Proof.Machine
end

