-- ==== Sys2Proof/Machine/Step.lean ====
section
/-!
DEFINITION. One step of the block: it accepts the oldest command on the command port and runs it to
completion (10_state R21, 70_reset_and_hazards R194), or waits.
-/

namespace Sys2Proof.Machine

/-- One step. With no command issued, or with the block unable to accept one, it waits: the requests stay
held (R191, R194, log 6). -/
def step (s : State) : Host.Outcome State Fault Refusal :=
  match s.port with
  | [] => .next s
  | cmd :: rest => if s.accepts then exec (commandInstr cmd) (s.setPort rest) else .next s

/-- The block with a table word's command as its next one (logs 5 and 13): the command stands first on the
port, and the acceptance conditions hold, so that the next step accepts it. A word that is no command
leaves the state as it is. -/
def State.withFetchWord (s : State) (nbits w : Nat) : State :=
  match (decodeTableWord nbits w).bind instrCommand? with
  | some cmd =>
    (((s.setPort (cmd :: s.port)).setPhase .idle).setFault none).setRefused none
  | none => s

end Sys2Proof.Machine
end

