-- ==== Sys2Proof/Safety.lean ====
section
/-!
DEFINITION. The terms the statements are made in: what a run may rely on, what a frame sent is, what the wire
keeps of a command, and the end of a run.
-/

namespace Sys2Proof

open Sys2Proof.Machine

/-- `FB[0] = h` whenever `LEAD = Header(h)`: written at reset, never changed by a command (R22, R53). -/
def leadHeld (s : State) : Bool :=
  match s.cfg.lead with
  | .none => true
  | .header h => decide (s.fb.read? 0 = some h)

/-- The block is ready to accept a command (R194), with a valid configuration (R13) and the lead byte in its
place (R22). -/
structure Ready (s : State) : Prop where
  idle : s.phase = .idle
  noFault : s.fault = none
  noRefusal : s.refused = none
  valid : cfgValid s.cfg = true
  lead : leadHeld s = true

/-- What holds of the block between two steps. -/
structure Inv (s : State) : Prop where
  /-- The FrameBuffer memory is in canonical form. -/
  canonical : s.fb.wf = true
  /-- Only the `CAP` cells of the FrameBuffer are written (R22). -/
  inBuffer : s.fb.below s.cfg.cap = true
  /-- The cursor never exceeds `CAP` (R23). -/
  cursor : s.c ≤ s.cfg.cap
  /-- STATUS bits 7:3 read as 0 (R25). -/
  reserved : s.status.toNat < 8
  /-- `FB[0] = h` under `LEAD = Header(h)` (R22). -/
  lead : cfgValid s.cfg = true → leadHeld s = true
  /-- A refusal and a fault never both apply (R174). -/
  oneMark : s.fault = none ∨ s.refused = none
  /-- `RfConfig` is recorded exactly when the configuration is invalid (R28, R190). -/
  config : s.refused = some .rfConfig ↔ cfgValid s.cfg = false
  /-- Between two steps the phase is `Busy` exactly after a stop of a command (R175). -/
  busy : s.phase = .busy ↔ s.fault ≠ none ∨ s.refused = some .rfMemType ∨ s.refused = some .rfLength
  /-- A recorded overrun lies outside the buffer (R28), and there is none with `STRING_BOUND = Safe` (R97). -/
  overrun : ∀ i, s.fault = some (.overrun i) → s.cfg.cap ≤ i ∧ s.cfg.stringBound = .literal

/-- From `s` to `t` one frame is sent and nothing else happens: `body` is written to FB from the lead
position up, `c` is left at the number of bytes sent (R111), and the transport receives lead, body and
terminator, each byte with its wait (R60, R113). The phase, the marks, CFG, SL and the port are as before. -/
def SendsFrame (s t : State) (body : List Byte) (status : Byte) : Prop :=
  t = { s with
    fb := t.fb
    c := leadLen s.cfg.lead + body.length
    status := status
    trace := s.trace ++ paced s.cfg.tByte (leadBytes s.cfg.lead ++ body ++ termBytes s.cfg.term) } ∧
  (∀ k (h : k < body.length), t.fb.read? (leadLen s.cfg.lead + k) = some body[k]) ∧
  (∀ j, j < leadLen s.cfg.lead ∨ leadLen s.cfg.lead + body.length ≤ j →
    t.fb.read? j = s.fb.read? j)

/-- From `s` to `t` the bytes are written at `c + 1` up, the cursor advances by their number, and nothing else
happens (40_primitive_writers section 3). -/
def AppendsBytes (s t : State) (bs : List Byte) : Prop :=
  t = { s with fb := t.fb, c := s.c + bs.length } ∧
  (∀ k (h : k < bs.length), t.fb.read? (s.c + 1 + k) = some bs[k]) ∧
  (∀ j, j ≤ s.c ∨ s.c + bs.length < j → t.fb.read? j = s.fb.read? j)

/-- From `s` to `t` writing the bytes at `c + 1` up overruns: the bytes below `CAP` are written, the fault is
recorded at the first index that is not below `CAP`, and nothing else happens (R93, R94, R171). -/
def OverrunsBy (s t : State) (bs : List Byte) : Prop :=
  t = { s with fb := t.fb, fault := some (.overrun (max (s.c + 1) s.cfg.cap)) } ∧
  (∀ k (h : k < bs.length), s.c + 1 + k < s.cfg.cap → t.fb.read? (s.c + 1 + k) = some bs[k]) ∧
  (∀ j, j ≤ s.c ∨ s.cfg.cap ≤ j → t.fb.read? j = s.fb.read? j)

/-- The number of sub-frames, `ceil(L / C)` (R156). -/
def chunkCount (k : Cfg) (len : Nat) : Nat := (len + k.chunkMax - 1) / k.chunkMax

/-- The payload bytes of chunk `idx` (R154). -/
def chunkData (k : Cfg) (data : List Byte) (idx : Nat) : List Byte :=
  (data.drop (idx * k.chunkMax)).take k.chunkMax

/-- The header body of sub-frame `idx` (R155). -/
def chunkHeader (k : Cfg) (base : Word16) (idx : Nat) : List Byte :=
  leadBytes k.lead ++ [0x31#8, 0x5A#8] ++ be2 (BitVec.ofNat 16 (base.toNat + idx * k.chunkMax))

/-- The events of sub-frame `idx` (R155). -/
def chunkEvents (k : Cfg) (base : Word16) (data : List Byte) (idx : Nat) : List Event :=
  paced k.tByte (chunkHeader k base idx) ++ rawEvents k (chunkData k data idx) ++
    paced k.tByte (termBytes k.term)

/-- The bytes of sub-frame `idx` (R155). -/
def chunkBytes (k : Cfg) (base : Word16) (data : List Byte) (idx : Nat) : List Byte :=
  chunkHeader k base idx ++ chunkData k data idx ++ termBytes k.term

/-- The drawing commands (42_command_encoders). -/
def isDrawing : Instr → Bool
  | .drawText _ _ _ _ _ _ _ _ => true
  | .drawFloat _ _ _ _ _ _ _ _ _ _ _ => true
  | .showIcon _ _ _ _ => true
  | .directIcon _ _ _ => true
  | .areaCopy _ _ _ _ _ _ _ => true
  | .memWrite _ _ _ => false
  | .memWriteFlash _ _ => false
  | .putByte _ _ => false
  | .beginFrame _ => false
  | .wb _ => false
  | .ww _ => false
  | .wl _ => false
  | .ws _ => false
  | .sendBody => false
  | .sendTail => false
  | .xmit => false
  | .rawOut _ _ _ => false

/-- The commands of the command port, both type selectors of the memory write included (R67). -/
def isCommand (i : Instr) : Bool := (instrCommand? i).isSome

/-- The command as the block sends it under a configuration: clamped coordinates (R131) and the text cut to
the remaining capacity (R95, R132) with STRING_BOUND = Safe. -/
def asSent (k : Cfg) : Instr → Instr
  | .drawText wa bs size fg bg x y text =>
    .drawText wa bs size fg bg x y
      (.runtime ((textOnWire text).take (k.cap - (10 + leadLen k.lead))))
  | .showIcon lib pic x y =>
    .showIcon lib pic (BitVec.ofNat 16 (min x.toNat (k.w - 1))) (BitVec.ofNat 16 (min y.toNat (k.h - 1)))
  | .directIcon x y addr =>
    .directIcon (BitVec.ofNat 16 (min x.toNat (k.w - 1))) (BitVec.ofNat 16 (min y.toNat (k.h - 1))) addr
  | i => i

/-- What a frame keeps of a command: the low four bits of a font size (R69, R70), the low seven bits of an id
whose top bit is forced (R71), and a text as its bytes up to the first 0x00 (R96). -/
def wireForm : Instr → Instr
  | .drawText wa bs size fg bg x y text =>
    .drawText wa bs (size &&& 0x0F#8) fg bg x y (.runtime (textOnWire text))
  | .drawFloat bs zf zm size fg bg inum fnum x y value =>
    .drawFloat bs zf zm (size &&& 0x0F#8) fg bg inum fnum x y value
  | .showIcon lib pic x y => .showIcon (lib &&& 0x7F#8) pic x y
  | .areaCopy cache xs ys xe ye x y => .areaCopy (cache &&& 0x7F#8) xs ys xe ye x y
  | i => i

/-- The end of a run (R201). Its result is the trace and STATUS. -/
structure EndOfRun (s : State) : Prop where
  nothingIssued : s.port = []
  idle : s.phase = .idle
  noFault : s.fault = none
  noRefusal : s.refused = none

end Sys2Proof
end

