-- ==== Sys2Proof/Certificates/Slice0/Obligations.lean ====
section
/-!
DEFINITION. The statements for the provers. Every one is about all states and operands unless its docstring
says otherwise. `Ready s`, `SendsFrame`, `AppendsBytes`, `OverrunsBy` and `Inv` are defined in Safety.lean.
-/

open Sys2Proof Sys2Proof.Machine

/-! ### Reset, the command port, the step -/

/-- R190, with the validity conditions of R13 written out. FB and SL take no value the spec gives, so nothing
is said of them but the lead byte. -/
def Obligations.ResetPutsEveryFieldToItsValue : Prop :=
  ∀ k : Cfg,
    (State.resetWith k).trace = [] ∧ (State.resetWith k).c = 0 ∧ (State.resetWith k).status = 0 ∧
    (State.resetWith k).phase = .idle ∧ (State.resetWith k).fault = none ∧
    (State.resetWith k).cfg = k ∧
    (∀ h, k.lead = .header h → 0 < k.cap → fbByte (State.resetWith k) 0 = h) ∧
    (((k.lead = .none ∧ 16 ≤ k.cap ∨ k.lead ≠ .none ∧ 17 ≤ k.cap) ∧ 1 ≤ k.w ∧ k.w ≤ 65536 ∧
        1 ≤ k.h ∧ k.h ≤ 65536 ∧ 1 ≤ k.chunkMax ∧ 1 ≤ k.lMax) →
      (State.resetWith k).refused = none) ∧
    (¬ ((k.lead = .none ∧ 16 ≤ k.cap ∨ k.lead ≠ .none ∧ 17 ≤ k.cap) ∧ 1 ≤ k.w ∧ k.w ≤ 65536 ∧
        1 ≤ k.h ∧ k.h ≤ 65536 ∧ 1 ≤ k.chunkMax ∧ 1 ≤ k.lMax) →
      (State.resetWith k).refused = some .rfConfig)

/-- R191: the block as reset executes nothing until the host issues a command, and then accepts it.
`State.reset` is the model's choice of a valid configuration (log 1) with an empty port (log 5). -/
def Obligations.ResetBlockWaitsForACommand : Prop :=
  step State.reset = .next State.reset ∧
  ∀ cmd, step (issue cmd State.reset) = exec (commandInstr cmd) State.reset

/-- R194, R130: with `phase = Idle` and no mark, the step is exec of the oldest command issued, at the state in
which that command has left the port. The port is the model's own field (log 5). -/
def Obligations.StepRunsTheIssuedCommand : Prop :=
  ∀ (s : State) (cmd : Command) (rest : List Command),
    s.port = cmd :: rest → s.phase = .idle → s.fault = none → s.refused = none →
    step s = exec (commandInstr cmd) { s with port := rest }

/-- R194, R28: while the phase is Busy or a mark is set, no command is accepted: nothing changes, and the
requests stay on the port. The same with nothing issued. -/
def Obligations.StepHoldsRequests : Prop :=
  ∀ s : State, (s.phase = .busy ∨ s.fault ≠ none ∨ s.refused ≠ none ∨ s.port = []) →
    step s = .next s

/-- The bytes of a table word that decode to an instruction are run by the next step (logs 5, 12, 13): the
step at the placed state is exec of the decoded instruction, and the port is as it was. -/
def Obligations.StepRunsTheDecodedWord : Prop :=
  ∀ (s : State) (nbits w : Nat) (i : Instr), decodeTableWord nbits w = some i →
    step (s.withFetchWord nbits w) =
      exec i { s with phase := .idle, fault := none, refused := none }

/-- R194, R97, R175: with a valid configuration, the lead byte in place and STRING_BOUND = Safe, a step from a
block that is ready takes the oldest command off the port and either completes it, ready for the next one, or
refuses it, a memory write, without an event. -/
def Obligations.AcceptedCommandCompletesOrIsRefused : Prop :=
  ∀ (s : State) (cmd : Command) (rest : List Command),
    Ready s → s.cfg.stringBound = .safe → s.port = cmd :: rest →
    ∃ t, step s = .next t ∧ t.port = rest ∧ t.fault = none ∧ t.cfg = s.cfg ∧
      ((Ready t ∧ ∃ es, t.trace = s.trace ++ es) ∨
        (t.phase = .busy ∧ t.trace = s.trace ∧
          ∃ type base data, cmd = .memWrite type base data ∧
            t.refused = some (if type = 0x5A#8 then .rfLength else .rfMemType)))

/-! ### Byte order and signed values -/

/-- R15, R42, R68: `BE_2`, `BE_4` and `twos_32` as arithmetic. -/
def Obligations.MultiByteFieldsAreBigEndian : Prop :=
  (∀ v : Word16, be2 v = [BitVec.ofNat 8 (v.toNat / 256), BitVec.ofNat 8 (v.toNat % 256)]) ∧
  (∀ v : Word32, be4 v = [BitVec.ofNat 8 (v.toNat / 16777216), BitVec.ofNat 8 (v.toNat / 65536 % 256),
    BitVec.ofNat 8 (v.toNat / 256 % 256), BitVec.ofNat 8 (v.toNat % 256)]) ∧
  (∀ v : Int32, ((twos32 v).toNat : Int) = v.toInt % 4294967296)

/-! ### Primitive writers -/

/-- R90: PutByte writes its one cell, or records the overrun and writes nothing. -/
def Obligations.PutByteWritesOneCell : Prop :=
  ∀ (s : State) (i : Nat) (v : Byte), s.fault = none → s.refused = none →
    (i < s.cfg.cap → ∃ t, exec (.putByte i v) s = .next t ∧ t = { s with fb := t.fb } ∧
      t.fb.read? i = some v ∧ ∀ j, j ≠ i → t.fb.read? j = s.fb.read? j) ∧
    (s.cfg.cap ≤ i → exec (.putByte i v) s = .next { s with fault := some (.overrun i) })

/-- R91: BEGIN sets the cursor to the opcode's place, 0 with `LEAD = None` and 1 with `LEAD = Header(h)`,
writes the opcode there and nothing else. -/
def Obligations.BeginStartsAFrame : Prop :=
  ∀ (s : State) (op : Byte), s.fault = none → s.refused = none →
    (s.cfg.lead = .none → 0 < s.cfg.cap → ∃ t, exec (.beginFrame op) s = .next t ∧
      t = { s with fb := t.fb, c := 0 } ∧ t.fb.read? 0 = some op ∧
      ∀ j, j ≠ 0 → t.fb.read? j = s.fb.read? j) ∧
    (∀ h, s.cfg.lead = .header h → 1 < s.cfg.cap → ∃ t, exec (.beginFrame op) s = .next t ∧
      t = { s with fb := t.fb, c := 1 } ∧ t.fb.read? 1 = some op ∧
      ∀ j, j ≠ 1 → t.fb.read? j = s.fb.read? j)

/-- R92: WB appends one byte, or records the overrun at `c + 1`. -/
def Obligations.WbAppendsOneByte : Prop :=
  ∀ (s : State) (v : Byte), s.fault = none → s.refused = none →
    (s.c + 1 < s.cfg.cap → ∃ t, exec (.wb v) s = .next t ∧ AppendsBytes s t [v]) ∧
    (s.cfg.cap ≤ s.c + 1 → ∃ t, exec (.wb v) s = .next t ∧ OverrunsBy s t [v])

/-- R93: WW appends two bytes, the most significant first, or records the overrun at the first index that is
not below CAP, the high byte written where it fits. -/
def Obligations.WwAppendsTwoBytes : Prop :=
  ∀ (s : State) (v : Word16), s.fault = none → s.refused = none →
    (s.c + 2 < s.cfg.cap → ∃ t, exec (.ww v) s = .next t ∧
      AppendsBytes s t [BitVec.ofNat 8 (v.toNat / 256), BitVec.ofNat 8 v.toNat]) ∧
    (s.cfg.cap ≤ s.c + 2 → ∃ t, exec (.ww v) s = .next t ∧
      OverrunsBy s t [BitVec.ofNat 8 (v.toNat / 256), BitVec.ofNat 8 v.toNat])

/-- R94: WL appends four bytes, the most significant first, or records the overrun at the first index that is
not below CAP, the bytes at lower indices written. -/
def Obligations.WlAppendsFourBytes : Prop :=
  ∀ (s : State) (v : Word32), s.fault = none → s.refused = none →
    (s.c + 4 < s.cfg.cap → ∃ t, exec (.wl v) s = .next t ∧
      AppendsBytes s t [BitVec.ofNat 8 (v.toNat / 16777216), BitVec.ofNat 8 (v.toNat / 65536),
        BitVec.ofNat 8 (v.toNat / 256), BitVec.ofNat 8 v.toNat]) ∧
    (s.cfg.cap ≤ s.c + 4 → ∃ t, exec (.wl v) s = .next t ∧
      OverrunsBy s t [BitVec.ofNat 8 (v.toNat / 16777216), BitVec.ofNat 8 (v.toNat / 65536),
        BitVec.ofNat 8 (v.toNat / 256), BitVec.ofNat 8 v.toNat])

/-- R96: a text counts up to its first 0x00, for both source kinds; Null has no bytes. -/
def Obligations.TextEndsAtTheFirstNul : Prop :=
  ∀ bytes : List Byte,
    textLen bytes ≤ bytes.length ∧
    (∀ k (h : k < bytes.length), k < textLen bytes → bytes[k] ≠ 0#8) ∧
    (∀ h : textLen bytes < bytes.length, bytes[textLen bytes] = 0#8) ∧
    (∀ s, exec (.ws (.runtime bytes)) s = exec (.ws (.static bytes)) s) ∧
    (∀ s, textLen bytes = 0 → exec (.ws (.runtime bytes)) s = .next s) ∧
    (∀ s, exec (.ws .null) s = .next s)

/-- R98, STRING_BOUND = Safe: from any cursor, WS copies the first `min(CAP - 1 - c, textLen)` bytes of
the text to `c + 1` up, advances the cursor by their number, sets TRUNC when the text was cut, and nothing
else. Nothing is written at or past CAP. -/
def Obligations.StringWriterStaysInTheBuffer : Prop :=
  ∀ (s : State) (src : TextSource), s.fault = none → s.refused = none →
    s.cfg.stringBound = .safe →
    ∃ t, exec (.ws src) s = .next t ∧
      AppendsBytes s { t with status := s.status }
        ((textOnWire src).take (s.cfg.cap - 1 - s.c)) ∧
      t.status = (if s.cfg.cap - 1 - s.c < (textOnWire src).length then s.status ||| 1#8 else s.status) ∧
      (s.c < s.cfg.cap → t.c < s.cfg.cap) ∧
      (∀ j, s.cfg.cap ≤ j → t.fb.read? j = s.fb.read? j)

/-- R95 under both values of STRING_BOUND: `n = min(R, len)` bytes go to `c + 1` up, the cursor advances by
`n`, TRUNC is set when the text was cut. The fault happens under `Literal` only, when the `n` bytes reach index
CAP: the cells up to `CAP - 1` are filled, cursor and STATUS unchanged. -/
def Obligations.StringWriterFollowsItsRule : Prop :=
  ∀ (s : State) (src : TextSource) (n : Nat), s.fault = none → s.refused = none →
    n = min (if s.cfg.stringBound = .safe then s.cfg.cap - 1 - s.c else s.cfg.cap - s.c)
      (textOnWire src).length →
    (n = 0 ∨ s.c + n < s.cfg.cap →
      ∃ t, exec (.ws src) s = .next t ∧
        AppendsBytes s { t with status := s.status } ((textOnWire src).take n) ∧
        t.status = (if n < (textOnWire src).length then s.status ||| 1#8 else s.status)) ∧
    (n ≠ 0 → s.cfg.cap ≤ s.c + n →
      s.cfg.stringBound = .literal ∧ s.c + n = s.cfg.cap ∧
      ∃ t, exec (.ws src) s = .next t ∧
        t = { s with fb := t.fb, fault := some (.overrun s.cfg.cap) } ∧
        (∀ k (h : k < (textOnWire src).length), s.c + 1 + k < s.cfg.cap →
          t.fb.read? (s.c + 1 + k) = some (textOnWire src)[k]) ∧
        (∀ j, j ≤ s.c ∨ s.cfg.cap ≤ j → t.fb.read? j = s.fb.read? j))

/-! ### Frame transmitter -/

/-- R111: SENDBODY sends `FB[0 .. c]` in increasing index order, each byte with its wait, and counts the
cursor up by one. What a cell that nothing has written holds is left open (R22). -/
def Obligations.SendBodyStreamsTheBuffer : Prop :=
  ∀ s : State, s.fault = none → s.refused = none → s.c < s.cfg.cap →
    ∃ t es, exec .sendBody s = .next t ∧ t = { s with c := s.c + 1, trace := s.trace ++ es } ∧
      es.length = 2 * (s.c + 1) ∧
      ∀ k, k ≤ s.c →
        (∃ b, es[2 * k]? = some (.emit b) ∧ ∀ v, s.fb.read? k = some v → b = v) ∧
        es[2 * k + 1]? = some (.wait s.cfg.tByte)

/-- R112: SENDTAIL sends the four terminator bytes, each with its wait, and nothing else changes. -/
def Obligations.SendTailAppendsTheTerminator : Prop :=
  ∀ s : State, s.fault = none → s.refused = none →
    exec .sendTail s = .next { s with trace := s.trace ++
      [.emit s.cfg.term.t0, .wait s.cfg.tByte, .emit s.cfg.term.t1, .wait s.cfg.tByte,
        .emit s.cfg.term.t2, .wait s.cfg.tByte, .emit s.cfg.term.t3, .wait s.cfg.tByte] }

/-- R113, R115: XMIT from cursor `c` appends the `c + 5` bytes `FB[0 .. c] ++ TERM`, in alternation
`Emit, Wait`, every wait of `T_BYTE`. What a cell that nothing has written holds is left open (R22). -/
def Obligations.XmitSendsBodyAndTerminator : Prop :=
  ∀ s : State, s.fault = none → s.refused = none → s.c < s.cfg.cap →
    ∃ t es body, exec .xmit s = .next t ∧ t = { s with c := s.c + 1, trace := s.trace ++ es } ∧
      byteProjection es = body ++
        [s.cfg.term.t0, s.cfg.term.t1, s.cfg.term.t2, s.cfg.term.t3] ∧
      body.length = s.c + 1 ∧
      (∀ k v, k ≤ s.c → s.fb.read? k = some v → body[k]? = some v) ∧
      es.length = 2 * (s.c + 5) ∧
      ∀ k, k < s.c + 5 → (∃ b, es[2 * k]? = some (.emit b)) ∧
        es[2 * k + 1]? = some (.wait s.cfg.tByte)

/-- R114, R11: RAWOUT sends the payload bytes as they are, with the waits DATA_DELAY gives. -/
def Obligations.RawOutFollowsDataDelay : Prop :=
  ∀ (s : State) (data : List Byte) (j0 n : Nat), s.fault = none → s.refused = none →
    j0 + n ≤ data.length →
    ∃ t es, exec (.rawOut data j0 n) s = .next t ∧ t = { s with trace := s.trace ++ es } ∧
      byteProjection es = (data.drop j0).take n ∧
      (s.cfg.dataDelay = .perByte → es.length = 2 * n ∧
        ∀ k, k < n → es[2 * k + 1]? = some (.wait s.cfg.tByte)) ∧
      (s.cfg.dataDelay = .oncePerChunk → es.length = n + 1 ∧ es[n]? = some (.wait s.cfg.tByte)) ∧
      (s.cfg.dataDelay = .noWait → es.length = n)

/-- The model's choice where R111 and R114 admit no access (logs 9, 10): a read outside the buffer or outside
the payload stops by name. -/
def Obligations.ReadsOutsideStopByName : Prop :=
  (∀ s : State, s.fault = none → s.refused = none → s.cfg.cap ≤ s.c →
    exec .sendBody s = .fault (.readPastBuffer s.cfg.cap) ∧
    exec .xmit s = .fault (.readPastBuffer s.cfg.cap)) ∧
  (∀ (s : State) (data : List Byte) (j0 n : Nat), s.fault = none → s.refused = none →
    data.length < j0 + n → 0 < n →
    exec (.rawOut data j0 n) s = .fault (.payloadReadPastEnd data.length))

/-! ### Command encoders -/

/-- R132, R61: the DRAW_TEXT frame, the text cut to the capacity, and its STATUS. The positions of the flag
bits are the spec's from general knowledge (R69 "The bit positions", log 14). -/
def Obligations.DrawTextSendsItsFrame : Prop :=
  ∀ (s : State) (wa bs : Bool) (size : Byte) (fg bg x y : Word16) (text : TextSource),
    Ready s → s.cfg.stringBound = .safe →
    ∃ t, exec (.drawText wa bs size fg bg x y text) s = .next t ∧
      SendsFrame s t
        ([0x11#8, BitVec.ofNat 8 (128 * wa.toNat + 64 * bs.toNat + size.toNat % 16)] ++
          be2 fg ++ be2 bg ++ be2 x ++ be2 y ++
          (textOnWire text).take (s.cfg.cap - (10 + leadLen s.cfg.lead)))
        (if s.cfg.cap - (10 + leadLen s.cfg.lead) < (textOnWire text).length then 1#8 else 0#8)

/-- R132 with STRING_BOUND = Literal (R95, R175): a text that fits is sent whole; a text that reaches `CAP`
records the overrun, no byte of the frame is sent, and the phase stays Busy. -/
def Obligations.DrawTextLiteralSendsOrStops : Prop :=
  ∀ (s : State) (wa bs : Bool) (size : Byte) (fg bg x y : Word16) (text : TextSource),
    Ready s → s.cfg.stringBound = .literal →
    ((textOnWire text).length ≤ s.cfg.cap - (10 + leadLen s.cfg.lead) →
      ∃ t, exec (.drawText wa bs size fg bg x y text) s = .next t ∧
        SendsFrame s t
          ([0x11#8, BitVec.ofNat 8 (128 * wa.toNat + 64 * bs.toNat + size.toNat % 16)] ++
            be2 fg ++ be2 bg ++ be2 x ++ be2 y ++ textOnWire text) 0#8) ∧
    (s.cfg.cap - (10 + leadLen s.cfg.lead) < (textOnWire text).length →
      ∃ t, exec (.drawText wa bs size fg bg x y text) s = .next t ∧
        t = { s with fb := t.fb, c := 9 + leadLen s.cfg.lead, status := 0, phase := .busy,
                     fault := some (.overrun s.cfg.cap) } ∧
        (∀ j, j < leadLen s.cfg.lead ∨ s.cfg.cap ≤ j → t.fb.read? j = s.fb.read? j))

/-- R133, R62: the DRAW_FLOAT frame. The positions of the flag bits are the spec's from general knowledge (R70,
log 14). -/
def Obligations.DrawFloatSendsItsFrame : Prop :=
  ∀ (s : State) (bs zf zm : Bool) (size : Byte) (fg bg : Word16) (inum fnum : Byte) (x y : Word16)
    (value : Int32), Ready s →
    ∃ t, exec (.drawFloat bs zf zm size fg bg inum fnum x y value) s = .next t ∧
      SendsFrame s t
        ([0x14#8, BitVec.ofNat 8 (128 * bs.toNat + 32 * zf.toNat + 16 * zm.toNat + size.toNat % 16)] ++
          be2 fg ++ be2 bg ++ [inum, fnum] ++ be2 x ++ be2 y ++ be4 (BitVec.ofInt 32 value.toInt)) 0#8

/-- R134, R63, R131: the SHOW_ICON frame, clamped coordinates, forced top bit, and its STATUS. -/
def Obligations.ShowIconSendsItsFrame : Prop :=
  ∀ (s : State) (lib pic : Byte) (x y : Word16), Ready s →
    ∃ t, exec (.showIcon lib pic x y) s = .next t ∧
      SendsFrame s t
        ([0x23#8] ++ be2 (BitVec.ofNat 16 (min x.toNat (s.cfg.w - 1))) ++
          be2 (BitVec.ofNat 16 (min y.toNat (s.cfg.h - 1))) ++ [0x80#8 ||| lib, pic])
        ((if s.cfg.w ≤ x.toNat then 2#8 else 0#8) ||| (if s.cfg.h ≤ y.toNat then 4#8 else 0#8))

/-- R135, R64, R131: the DIRECT_ICON frame. -/
def Obligations.DirectIconSendsItsFrame : Prop :=
  ∀ (s : State) (x y addr : Word16), Ready s →
    ∃ t, exec (.directIcon x y addr) s = .next t ∧
      SendsFrame s t
        ([0x24#8] ++ be2 (BitVec.ofNat 16 (min x.toNat (s.cfg.w - 1))) ++
          be2 (BitVec.ofNat 16 (min y.toNat (s.cfg.h - 1))) ++ [0x80#8] ++ be2 addr)
        ((if s.cfg.w ≤ x.toNat then 2#8 else 0#8) ||| (if s.cfg.h ≤ y.toNat then 4#8 else 0#8))

/-- R136, R65: the AREA_COPY frame; nothing is clamped and no order of the corners is checked. -/
def Obligations.AreaCopySendsItsFrame : Prop :=
  ∀ (s : State) (cache : Byte) (xs ys xe ye x y : Word16), Ready s →
    ∃ t, exec (.areaCopy cache xs ys xe ye x y) s = .next t ∧
      SendsFrame s t
        ([0x27#8, 0x80#8 ||| cache] ++ be2 xs ++ be2 ys ++ be2 xe ++ be2 ye ++ be2 x ++ be2 y) 0#8

/-- R139: for every `x >= W - 1` the x field of a SHOW_ICON or DIRECT_ICON frame is exactly `W - 1`, and for
every `y >= H - 1` its y field is exactly `H - 1`. -/
def Obligations.IconFieldsSaturate : Prop :=
  ∀ (s : State) (i : Instr) (x y : Word16), Ready s →
    ((∃ lib pic, i = .showIcon lib pic x y) ∨ (∃ addr, i = .directIcon x y addr)) →
    ∃ t es, exec i s = .next t ∧ t.trace = s.trace ++ es ∧
      (s.cfg.w - 1 ≤ x.toNat → ((byteProjection es).drop (leadLen s.cfg.lead + 1)).take 2 =
        be2 (BitVec.ofNat 16 (s.cfg.w - 1))) ∧
      (s.cfg.h - 1 ≤ y.toNat → ((byteProjection es).drop (leadLen s.cfg.lead + 3)).take 2 =
        be2 (BitVec.ofNat 16 (s.cfg.h - 1)))

/-! ### Chunked memory writer -/

/-- R150, R152 to R155: MEM_WRITE sends its sub-frames in order, header, data and terminator with their
waits, and leaves SL, the cursor and FB as the rule says; STATUS is 0 and the rest is as before. -/
def Obligations.MemWriteSendsItsSubFrames : Prop :=
  ∀ (s : State) (base : Word16) (data : List Byte), Ready s → data.length ≤ s.cfg.lMax →
    ∃ t, exec (.memWrite 0x5A#8 base data) s = .next t ∧
      t = { s with fb := t.fb, c := t.c, sl := t.sl, status := 0, trace := s.trace ++
        (List.range (chunkCount s.cfg data.length)).flatMap (chunkEvents s.cfg base data) } ∧
      t.sl.type = 0x5A#8 ∧ t.sl.base = base ∧ t.sl.rem = 0 ∧
      t.sl.idx = chunkCount s.cfg data.length ∧
      (data ≠ [] → t.c = leadLen s.cfg.lead + 4 ∧
        t.sl.n = data.length - (chunkCount s.cfg data.length - 1) * s.cfg.chunkMax ∧
        ∀ k, k < 4 → t.fb.read? (leadLen s.cfg.lead + k) =
          (chunkHeader s.cfg base (chunkCount s.cfg data.length - 1))[leadLen s.cfg.lead + k]?) ∧
      (∀ j, j < leadLen s.cfg.lead ∨ leadLen s.cfg.lead + 4 ≤ j →
        t.fb.read? j = s.fb.read? j)

/-- R156: sub-frame count, addresses, sizes and the byte count of the trace, for `L >= 1`. -/
def Obligations.SubFramesCoverThePayload : Prop :=
  ∀ (s : State) (base : Word16) (data : List Byte), Ready s → data.length ≤ s.cfg.lMax →
    data ≠ [] →
    ∃ (t : State) (es : List Event) (sizes : List Nat), exec (.memWrite 0x5A#8 base data) s = .next t ∧
      t.trace = s.trace ++ es ∧
      byteProjection es = (List.range sizes.length).flatMap (fun k =>
        leadBytes s.cfg.lead ++ [0x31#8, 0x5A#8] ++
          be2 (BitVec.ofNat 16 (base.toNat + k * s.cfg.chunkMax)) ++
          ((data.drop (k * s.cfg.chunkMax)).take (sizes[k]?.getD 0)) ++ termBytes s.cfg.term) ∧
      (sizes.length - 1) * s.cfg.chunkMax < data.length ∧
      data.length ≤ sizes.length * s.cfg.chunkMax ∧
      (∀ k, k + 1 < sizes.length → sizes[k]? = some s.cfg.chunkMax) ∧
      sizes[sizes.length - 1]? = some (data.length - (sizes.length - 1) * s.cfg.chunkMax) ∧
      sizes.sum = data.length ∧
      (byteProjection es).length =
        sizes.length * (8 + leadLen s.cfg.lead) + data.length

/-- R157: an empty payload sends nothing and leaves `SL.REM = 0`, `SL.IDX = 0`. -/
def Obligations.EmptyPayloadSendsNothing : Prop :=
  ∀ (s : State) (base : Word16), s.phase = .idle → s.fault = none → s.refused = none →
    exec (.memWrite 0x5A#8 base []) s = .next { s with
      status := 0, sl := { s.sl with type := 0x5A#8, base := base, rem := 0, idx := 0 } }

/-- R151, R174, R175: the refusals. The mark is set, the type selector is checked first, STATUS is 0, the
phase stays Busy, and nothing else changes: no event, no write. MEM_WRITE_FLASH is refused whatever its
operands. -/
def Obligations.MemWriteRefusalsSendNothing : Prop :=
  ∀ (s : State) (type : Byte) (base : Word16) (data : List Byte),
    s.phase = .idle → s.fault = none → s.refused = none →
    (type ≠ 0x5A#8 → exec (.memWrite type base data) s =
      .next { s with phase := .busy, status := 0, refused := some .rfMemType }) ∧
    (s.cfg.lMax < data.length → exec (.memWrite 0x5A#8 base data) s =
      .next { s with phase := .busy, status := 0, refused := some .rfLength }) ∧
    exec (.memWriteFlash base data) s =
      .next { s with phase := .busy, status := 0, refused := some .rfMemType }

/-! ### Whole-machine rules -/

/-- R97: with a valid configuration and STRING_BOUND = Safe, no command records an overrun, whatever FB, the
cursor and SL hold: every command answers a next state, and one without a fault mark. -/
def Obligations.NoCommandOverruns : Prop :=
  ∀ (s : State) (i : Instr), isCommand i = true → cfgValid s.cfg = true →
    s.cfg.stringBound = .safe → s.fault = none →
    ∃ t, exec i s = .next t ∧ t.fault = none

/-- R28, R176: once a mark is set nothing executes: every instruction and every step leaves the state as it
is. -/
def Obligations.MarksAreSticky : Prop :=
  ∀ s : State, (s.fault ≠ none ∨ s.refused ≠ none) →
    step s = .next s ∧ ∀ i, exec i s = .next s

/-- R24, R29, R26, R175: no instruction writes CFG or the port, takes an event out of the trace or changes
one; only MEM_WRITE writes SL; the internal operations write neither the phase nor the refusal mark. -/
def Obligations.EveryInstructionKeepsItsFrame : Prop :=
  ∀ (s t : State) (i : Instr), exec i s = .next t →
    t.cfg = s.cfg ∧ t.port = s.port ∧ (∃ es, t.trace = s.trace ++ es) ∧
    ((∀ type base data, i ≠ .memWrite type base data) → t.sl = s.sl) ∧
    (isCommand i = false → t.phase = s.phase ∧ t.refused = s.refused)

/-- R22, R41: only cells of the buffer are ever written, and the operations of the transmitter write none. -/
def Obligations.WritesStayInTheBuffer : Prop :=
  ∀ (s t : State) (i : Instr), exec i s = .next t →
    (∀ j, s.cfg.cap ≤ j → t.fb.read? j = s.fb.read? j) ∧
    ((i = .sendBody ∨ i = .sendTail ∨ i = .xmit ∨ ∃ data j0 n, i = .rawOut data j0 n) →
      t.fb = s.fb)

/-- R25: a STATUS bit that an instruction sets is TRUNC, set by WS alone or inside DRAW_TEXT, or CLAMPX or
CLAMPY, set by SHOW_ICON or DIRECT_ICON. -/
def Obligations.StatusBitsHaveTheirSetters : Prop :=
  ∀ (s t : State) (i : Instr) (b : Nat), exec i s = .next t → t.status.getLsbD b = true →
    s.status.getLsbD b = true ∨
    (b = 0 ∧ ((∃ src, i = .ws src) ∨
      ∃ wa bs size fg bg x y text, i = .drawText wa bs size fg bg x y text)) ∨
    ((b = 1 ∨ b = 2) ∧ ((∃ lib pic x y, i = .showIcon lib pic x y) ∨
      ∃ x y addr, i = .directIcon x y addr))

/-- R138, R53: what a command sends is a function of its operands and CFG alone: two blocks with the same CFG,
both ready, append the same events and end with the same STATUS, whatever the rest of their state. -/
def Obligations.NoStateLeaksIntoTheTrace : Prop :=
  ∀ (s₁ s₂ : State) (i : Instr), isCommand i = true → Ready s₁ → Ready s₂ → s₁.cfg = s₂.cfg →
    ∃ t₁ t₂ es, exec i s₁ = .next t₁ ∧ exec i s₂ = .next t₂ ∧
      t₁.trace = s₁.trace ++ es ∧ t₂.trace = s₂.trace ++ es ∧
      t₁.status = t₂.status ∧ t₁.phase = t₂.phase ∧ t₁.fault = t₂.fault ∧ t₁.refused = t₂.refused

/-- R115, R11: the byte projection of what a command appends does not depend on T_BYTE or DATA_DELAY. -/
def Obligations.BytesDoNotDependOnTheWaits : Prop :=
  ∀ (s₁ s₂ : State) (i : Instr), isCommand i = true → Ready s₁ → Ready s₂ →
    s₂.cfg = { s₁.cfg with tByte := s₂.cfg.tByte, dataDelay := s₂.cfg.dataDelay } →
    ∃ t₁ t₂ es₁ es₂, exec i s₁ = .next t₁ ∧ exec i s₂ = .next t₂ ∧
      t₁.trace = s₁.trace ++ es₁ ∧ t₂.trace = s₂.trace ++ es₂ ∧
      byteProjection es₁ = byteProjection es₂

/-- The invariant of Safety.lean holds right after reset, of any configuration and of the model's own. -/
def Obligations.ResetMeetsTheInvariant : Prop :=
  (∀ k : Cfg, Inv (State.resetWith k)) ∧ Inv State.reset

/-- Every step keeps the invariant: canonical memory inside the buffer, the cursor at most CAP, reserved STATUS
bits 0, the lead byte in place, at most one mark, the phase Busy exactly after a stop of a command, no overrun
recorded with STRING_BOUND = Safe. The step answers a next state. -/
def Obligations.StepKeepsTheInvariant : Prop :=
  ∀ s : State, Inv s → ∃ t, step s = .next t ∧ Inv t

/-! ### Encoding -/

/-- The SHOW_ICON frame is read as R63 lays it out, and the words 0x3100 and 0x12 are refused (R73, R75). That a
table word is completed with zero operands (0x11, 0x24, 0x315A), and that 0x31A5, which the block never sends, is
read as MEM_WRITE_FLASH, is the model's choice: log 12, DESIGN CHOICE. -/
def Obligations.SpecWordsDecode : Prop :=
  decodeTableWord 8 0x11 = some (.drawText false false 0 0 0 0 0 (.runtime [])) ∧
  decodeTableWord 8 0x24 = some (.directIcon 0 0 0) ∧
  decodeTableWord 16 0x315A = some (.memWrite 0x5A#8 0 []) ∧
  decodeTableWord 16 0x31A5 = some (.memWriteFlash 0 []) ∧
  decodeTableWord 16 0x3100 = none ∧ decodeTableWord 8 0x12 = none ∧
  decode [0x23#8, 0x01#8, 0x0F#8, 0x00#8, 0x0A#8, 0x81#8, 0x05#8] = .ok (.showIcon 1 5 271 10)

/-- Decode of encode: every instruction that has an encoding is read back, with every operand at every value
the frame keeps (R61 to R66). That a text comes back as a Runtime source, whatever its kind was (Null and Static
too), and that MEM_WRITE_FLASH has a frame, laid out like that of the selector 0x5A with 0xA5 in its place, is the
model's choice: log 12, DESIGN CHOICE. -/
def Obligations.DecodeOfEncode : Prop :=
  ∀ (i : Instr) (bytes : List Byte), encode i = some bytes → decode bytes = .ok (wireForm i)

/-- Encode of decode: what the decoder reads is well-formed, is what a frame keeps of itself, and is encoded by
exactly the bytes read, so that no two byte strings are read as one instruction (R77). Which byte strings are
read, a text as a Runtime source and the selector 0xA5 as MEM_WRITE_FLASH among them, is the model's choice:
log 12, DESIGN CHOICE. -/
def Obligations.EncodeOfDecode : Prop :=
  ∀ (bytes : List Byte) (i : Instr), decode bytes = .ok i →
    encode i = some bytes ∧ wellFormed i = true ∧ wireForm i = i

/-- R60, R113, R130: what a drawing command sends is the encoding of the command as sent, with the lead byte
and the terminator, each byte with its wait; and reading that frame gives `wireForm` of the command as sent:
clamped coordinates, the text cut and read as a Runtime source, the font size mod 16, the ids mod 128 (the source
kind is log 12's choice). The encoder is written from the frame tables, the meaning from the pseudocode. -/
def Obligations.DrawingCommandsSendTheirEncoding : Prop :=
  ∀ (s : State) (i : Instr), isDrawing i = true → Ready s → s.cfg.stringBound = .safe →
    ∃ t frame, exec i s = .next t ∧ encodeFrame s.cfg (asSent s.cfg i) = some frame ∧
      t.trace = s.trace ++ paced s.cfg.tByte frame ∧
      decodeFrame s.cfg frame = .ok (wireForm (asSent s.cfg i))

/-- R155, R66: what MEM_WRITE sends is, sub-frame by sub-frame, the encoding of a MEM_WRITE of that chunk at
that chunk's address. -/
def Obligations.SubFramesAreEncodedChunks : Prop :=
  ∀ (s : State) (base : Word16) (data : List Byte), Ready s → data.length ≤ s.cfg.lMax →
    ∃ (t : State) (frames : List (List Byte)) (es : List Event),
      exec (.memWrite 0x5A#8 base data) s = .next t ∧ t.trace = s.trace ++ es ∧
      byteProjection es = frames.flatten ∧
      frames.length = chunkCount s.cfg data.length ∧
      ∀ k (h : k < frames.length),
        encodeFrame s.cfg (.memWrite 0x5A#8
          (BitVec.ofNat 16 (base.toNat + k * s.cfg.chunkMax)) (chunkData s.cfg data k)) =
        some frames[k]
end

