-- ==== Sys2Proof/Laws/Encoding.lean ====
section
/-!
SUPPORT. The fields of a frame: what joining bytes to a word and splitting it again gives (R42), and the bits
of the flag and id bytes (R69 to R71).
-/

namespace Sys2Proof

theorem getLsbD_word16Of (hi lo : Byte) (i : Nat) :
    (word16Of hi lo).getLsbD i = if i < 8 then lo.getLsbD i else hi.getLsbD (i - 8) := by
  change BitVec.getLsbD (w := 8 + 8) (hi ++ lo) i = _
  rw [BitVec.getLsbD_append]

theorem getLsbD_word32Of (b3 b2 b1 b0 : Byte) (i : Nat) :
    (word32Of b3 b2 b1 b0).getLsbD i =
      if i < 8 then b0.getLsbD i else if i < 16 then b1.getLsbD (i - 8)
      else if i < 24 then b2.getLsbD (i - 16) else b3.getLsbD (i - 24) := by
  change BitVec.getLsbD (w := 8 + 8 + 8 + 8) (b3 ++ b2 ++ b1 ++ b0) i = _
  rw [BitVec.getLsbD_append, BitVec.getLsbD_append, BitVec.getLsbD_append,
    show i - 8 - 8 = i - 16 by omega, show i - 16 - 8 = i - 24 by omega]
  by_cases h : i < 8
  · simp [h]
  · by_cases h' : i < 16
    · simp [h, h', show i - 8 < 8 by omega]
    · by_cases h'' : i < 24
      · simp [h, h', h'', show ¬ i - 8 < 8 by omega, show i - 16 < 8 by omega]
      · simp [h, h', h'', show ¬ i - 8 < 8 by omega, show ¬ i - 16 < 8 by omega]

/-- Splitting a word and joining the bytes gives the word. -/
theorem word16Of_split (v : Word16) :
    word16Of (v.extractLsb' 8 8) (v.extractLsb' 0 8) = v := by
  apply BitVec.eq_of_getLsbD_eq
  intro i hi
  rw [getLsbD_word16Of]
  simp only [BitVec.getLsbD_extractLsb']
  split
  · simp [*]
  · simp [show i - 8 < 8 by omega, show 8 + (i - 8) = i by omega]

theorem word32Of_split (v : Word32) :
    word32Of (v.extractLsb' 24 8) (v.extractLsb' 16 8) (v.extractLsb' 8 8) (v.extractLsb' 0 8) =
      v := by
  apply BitVec.eq_of_getLsbD_eq
  intro i hi
  rw [getLsbD_word32Of]
  simp only [BitVec.getLsbD_extractLsb']
  split
  · simp [*]
  · split
    · simp [show i - 8 < 8 by omega, show 8 + (i - 8) = i by omega]
    · split
      · simp [show i - 16 < 8 by omega, show 16 + (i - 16) = i by omega]
      · simp [show i - 24 < 8 by omega, show 24 + (i - 24) = i by omega]

/-- Joining bytes and splitting the word gives the bytes. -/
theorem be2_word16Of (hi lo : Byte) : be2 (word16Of hi lo) = [hi, lo] := by
  simp only [be2, List.cons.injEq, and_true]
  constructor <;>
  · apply BitVec.eq_of_getLsbD_eq
    intro i h
    rw [BitVec.getLsbD_extractLsb', getLsbD_word16Of]
    simp [h]

theorem be4_word32Of (b3 b2 b1 b0 : Byte) : be4 (word32Of b3 b2 b1 b0) = [b3, b2, b1, b0] := by
  simp only [be4, List.cons.injEq, and_true]
  refine ⟨?_, ?_, ?_, ?_⟩ <;>
  · apply BitVec.eq_of_getLsbD_eq
    intro i h
    rw [BitVec.getLsbD_extractLsb', getLsbD_word32Of]
    simp [h, show ¬ (8 + i < 8) by omega, show ¬ (16 + i < 8) by omega,
      show ¬ (24 + i < 8) by omega, show 8 + i < 16 by omega, show ¬ (16 + i < 16) by omega,
      show ¬ (24 + i < 16) by omega, show 16 + i < 24 by omega, show ¬ (24 + i < 24) by omega]

/-- The encoded flag byte of DRAW_TEXT, field by field (R69). -/
theorem textFlagByte_fields (wa bs : Bool) (size : Byte) :
    let f : Byte := BitVec.ofBool wa ++ BitVec.ofBool bs ++ 0#2 ++ size.extractLsb' 0 4
    f.extractLsb' 4 2 = 0#2 ∧ f.getLsbD 7 = wa ∧ f.getLsbD 6 = bs ∧
      (f.extractLsb' 0 4).setWidth 8 = size &&& 0x0F#8 := by
  have h : ∀ (a b : Bool) (n : Byte),
      let f : Byte := BitVec.ofBool a ++ BitVec.ofBool b ++ 0#2 ++ n.extractLsb' 0 4
      f.extractLsb' 4 2 = 0#2 ∧ f.getLsbD 7 = a ∧ f.getLsbD 6 = b ∧
        (f.extractLsb' 0 4).setWidth 8 = n &&& 0x0F#8 := by decide +kernel
  exact h wa bs size

/-- The encoded flag byte of DRAW_FLOAT, field by field (R70). -/
theorem floatFlagByte_fields (bs zf zm : Bool) (size : Byte) :
    let f : Byte := BitVec.ofBool bs ++ 0#1 ++ BitVec.ofBool zf ++ BitVec.ofBool zm ++
      size.extractLsb' 0 4
    f.getLsbD 6 = false ∧ f.getLsbD 7 = bs ∧ f.getLsbD 5 = zf ∧ f.getLsbD 4 = zm ∧
      (f.extractLsb' 0 4).setWidth 8 = size &&& 0x0F#8 := by
  have h : ∀ (a b c : Bool) (n : Byte),
      let f : Byte := BitVec.ofBool a ++ 0#1 ++ BitVec.ofBool b ++ BitVec.ofBool c ++
        n.extractLsb' 0 4
      f.getLsbD 6 = false ∧ f.getLsbD 7 = a ∧ f.getLsbD 5 = b ∧ f.getLsbD 4 = c ∧
        (f.extractLsb' 0 4).setWidth 8 = n &&& 0x0F#8 := by decide +kernel
  exact h bs zf zm size

/-- The encoded id byte with its forced top bit, field by field (R71). -/
theorem idByte_fields (id : Byte) :
    let f : Byte := 1#1 ++ id.extractLsb' 0 7
    f.getLsbD 7 = true ∧ (f.extractLsb' 0 7).setWidth 8 = id &&& 0x7F#8 := by
  have h : ∀ n : Byte, let f : Byte := 1#1 ++ n.extractLsb' 0 7
      f.getLsbD 7 = true ∧ (f.extractLsb' 0 7).setWidth 8 = n &&& 0x7F#8 := by decide +kernel
  exact h id

end Sys2Proof
end

