-- ==== Sys2Proof/Laws/Memory.lean ====
section
/-!
SUPPORT. FrameBuffer memory: a read after a write gives the byte written, a write leaves every other byte
alone, and every memory operation keeps the canonical form and the capacity.
-/

namespace Sys2Proof.Machine

@[simp] theorem Memory.read?_nil (j : Nat) : Memory.read? [] j = none := rfl

theorem Memory.read?_cons (a : Nat) (b : Byte) (m : Memory) (j : Nat) :
    Memory.read? ((a, b) :: m) j = if a = j then some b else Memory.read? m j := rfl

/-- A read after a write: the byte written at the index, the old byte anywhere else. -/
theorem Memory.read?_write (m : Memory) (i j : Nat) (v : Byte) :
    (m.write i v).read? j = if i = j then some v else m.read? j := by
  induction m with
  | nil => simp [Memory.write, Memory.read?]
  | cons p m ih =>
    obtain ⟨a, b⟩ := p
    simp only [Memory.write]
    split
    · simp only [Memory.read?]
    · split
      · subst_vars
        simp only [Memory.read?]
        split <;> rfl
      · simp only [Memory.read?, ih]
        by_cases h1 : a = j
        · have h2 : ¬ i = j := by omega
          simp [h1, h2]
        · simp [h1]

@[simp] theorem Memory.read?_write_same (m : Memory) (i : Nat) (v : Byte) :
    (m.write i v).read? i = some v := by simp [Memory.read?_write]

theorem Memory.read?_write_other (m : Memory) {i j : Nat} (v : Byte) (h : i ≠ j) :
    (m.write i v).read? j = m.read? j := by simp [Memory.read?_write, h]

@[simp] theorem Memory.writeAll_nil (m : Memory) (i : Nat) : m.writeAll i [] = m := rfl

@[simp] theorem Memory.writeAll_cons (m : Memory) (i : Nat) (b : Byte) (bs : List Byte) :
    m.writeAll i (b :: bs) = (m.write i b).writeAll (i + 1) bs := rfl

theorem Memory.writeAll_append (m : Memory) (i : Nat) (as bs : List Byte) :
    m.writeAll i (as ++ bs) = (m.writeAll i as).writeAll (i + as.length) bs := by
  induction as generalizing m i with
  | nil => simp
  | cons a as ih => simp [ih, Nat.add_assoc, Nat.add_comm 1]

/-- Consecutive writes: the `k`-th byte written is read at `i + k`, every other byte is as before. -/
theorem Memory.read?_writeAll (m : Memory) (i j : Nat) (bs : List Byte) :
    (m.writeAll i bs).read? j =
      if i ≤ j ∧ j < i + bs.length then bs[j - i]? else m.read? j := by
  induction bs generalizing m i with
  | nil => simp
  | cons b bs ih =>
    simp only [Memory.writeAll_cons, ih, List.length_cons, Memory.read?_write]
    by_cases h1 : i = j
    · subst h1
      simp
    · by_cases h2 : i + 1 ≤ j ∧ j < i + 1 + bs.length
      · have h3 : i ≤ j ∧ j < i + (bs.length + 1) := by omega
        have h4 : j - i = (j - (i + 1)) + 1 := by omega
        rw [if_pos h2, if_pos h3, h4, List.getElem?_cons_succ]
      · have h3 : ¬ (i ≤ j ∧ j < i + (bs.length + 1)) := by omega
        rw [if_neg h2, if_neg h3, if_neg h1]

theorem Memory.read?_writeAll_outside (m : Memory) {i j : Nat} (bs : List Byte)
    (h : j < i ∨ i + bs.length ≤ j) : (m.writeAll i bs).read? j = m.read? j := by
  rw [Memory.read?_writeAll, if_neg (by omega)]

theorem Memory.read?_writeAll_inside (m : Memory) (i k : Nat) (bs : List Byte)
    (h : k < bs.length) : (m.writeAll i bs).read? (i + k) = some bs[k] := by
  rw [Memory.read?_writeAll, if_pos (by omega), Nat.add_sub_cancel_left, List.getElem?_eq_getElem h]

/-! ### The canonical form -/

/-- The canonical form, cell by cell. -/
theorem Memory.wf_cons (a : Nat) (b : Byte) (m : Memory) :
    Memory.wf ((a, b) :: m) = true ↔ (∀ p ∈ m.head?, a < p.1) ∧ m.wf = true := by
  cases m with
  | nil => simp [Memory.wf]
  | cons p m =>
    obtain ⟨a', b'⟩ := p
    simp [Memory.wf]

theorem Memory.head?_write (m : Memory) (i : Nat) (v : Byte) :
    ∀ p ∈ (m.write i v).head?, p.1 = i ∨ ∃ q ∈ m.head?, q.1 = p.1 := by
  cases m with
  | nil => simp [Memory.write]
  | cons q m =>
    obtain ⟨a, b⟩ := q
    simp only [Memory.write]
    split
    · simp
    · split <;> simp

/-- A write keeps the canonical form. -/
theorem Memory.wf_write {m : Memory} (i : Nat) (v : Byte) (h : m.wf = true) :
    (m.write i v).wf = true := by
  induction m with
  | nil => simp [Memory.write, Memory.wf]
  | cons p m ih =>
    obtain ⟨a, b⟩ := p
    have hm := (Memory.wf_cons a b m).1 h
    simp only [Memory.write]
    split
    · rename_i hlt
      exact (Memory.wf_cons _ _ _).2 ⟨by simpa using hlt, h⟩
    · split
      · subst_vars
        exact (Memory.wf_cons _ _ _).2 hm
      · refine (Memory.wf_cons _ _ _).2 ⟨fun p hp => ?_, ih hm.2⟩
        rcases Memory.head?_write m i v p hp with h1 | ⟨q, hq, h1⟩
        · omega
        · have := hm.1 q hq
          omega

/-- Consecutive writes keep the canonical form. -/
theorem Memory.wf_writeAll {m : Memory} (i : Nat) (bs : List Byte) (h : m.wf = true) :
    (m.writeAll i bs).wf = true := by
  induction bs generalizing m i with
  | nil => exact h
  | cons b bs ih => exact ih (i + 1) (Memory.wf_write i b h)

theorem Memory.below_write {m : Memory} {cap i : Nat} (v : Byte) (hi : i < cap)
    (h : m.below cap = true) : (m.write i v).below cap = true := by
  induction m with
  | nil => simp [Memory.write, Memory.below, hi]
  | cons p m ih =>
    obtain ⟨a, b⟩ := p
    simp only [Memory.below, Bool.and_eq_true, decide_eq_true_eq] at h
    simp only [Memory.write]
    split
    · simp [Memory.below, hi, h.1, h.2]
    · split
      · simp [Memory.below, hi, h.2]
      · simp [Memory.below, h.1, ih h.2]

theorem Memory.below_writeAll {m : Memory} {cap i : Nat} (bs : List Byte)
    (hi : i + bs.length ≤ cap) (h : m.below cap = true) : (m.writeAll i bs).below cap = true := by
  induction bs generalizing m i with
  | nil => exact h
  | cons b bs ih =>
    simp only [List.length_cons] at hi
    exact ih (by omega) (Memory.below_write b (by omega) h)

/-- In canonical form, an index below the first listed one is not listed. -/
theorem Memory.wf_lower {m : Memory} {a : Nat} (h : m.wf = true) (ha : ∀ p ∈ m.head?, a < p.1) :
    m.read? a = none := by
  induction m with
  | nil => rfl
  | cons p m ih =>
    obtain ⟨a', b⟩ := p
    have h1 : a < a' := ha (a', b) (by simp)
    have h2 := (Memory.wf_cons a' b m).1 h
    rw [Memory.read?_cons, if_neg (by omega)]
    exact ih h2.2 (fun q hq => lt_trans h1 (h2.1 q hq))

/-- In canonical form, equal reads everywhere mean equal memories. -/
theorem Memory.ext {m n : Memory} (hm : m.wf = true) (hn : n.wf = true)
    (h : ∀ i, m.read? i = n.read? i) : m = n := by
  induction m generalizing n with
  | nil =>
    cases n with
    | nil => rfl
    | cons p n =>
      obtain ⟨a, b⟩ := p
      have := h a
      simp [Memory.read?] at this
  | cons p m ih =>
    obtain ⟨a, b⟩ := p
    have hm' := (Memory.wf_cons a b m).1 hm
    cases n with
    | nil =>
      have := h a
      simp [Memory.read?] at this
    | cons q n =>
      obtain ⟨a', b'⟩ := q
      have hn' := (Memory.wf_cons a' b' n).1 hn
      have key : a = a' := by
        rcases Nat.lt_trichotomy a a' with hlt | heq | hgt
        · have h1 := h a
          rw [Memory.read?_cons, if_pos rfl,
            Memory.wf_lower hn (fun p hp => by simp at hp; rw [← hp]; exact hlt)] at h1
          cases h1
        · exact heq
        · have h1 := h a'
          rw [Memory.wf_lower hm (fun p hp => by simp at hp; rw [← hp]; exact hgt),
            Memory.read?_cons, if_pos rfl] at h1
          cases h1
      subst key
      have hb : b = b' := by
        have h1 := h a
        simpa [Memory.read?] using h1
      subst hb
      congr 1
      refine ih hm'.2 hn'.2 fun i => ?_
      by_cases hi : a = i
      · subst hi
        rw [Memory.wf_lower hm'.2 hm'.1, Memory.wf_lower hn'.2 hn'.1]
      · have h1 := h i
        simpa [Memory.read?, hi] using h1

/-! ### Reset -/

theorem resetFb_wf (k : Cfg) : (resetFb k).wf = true := by
  unfold resetFb
  split
  · rfl
  · split <;> rfl

theorem resetFb_below (k : Cfg) : (resetFb k).below k.cap = true := by
  unfold resetFb
  split
  · rfl
  · split
    · simpa [Memory.below]
    · rfl

end Sys2Proof.Machine
end

