-- ==== Sys2Proof/Laws/State.lean ====
section
/-!
SUPPORT. What each register update does to each field of the state, one lemma a field and update.
-/

namespace Sys2Proof.Machine

/-! ### setFb -/

@[simp] theorem State.setFb_fb (s : State) (m : Memory) : (s.setFb m).fb = m := rfl
@[simp] theorem State.setFb_c (s : State) (m : Memory) : (s.setFb m).c = s.c := rfl
@[simp] theorem State.setFb_cfg (s : State) (m : Memory) : (s.setFb m).cfg = s.cfg := rfl
@[simp] theorem State.setFb_status (s : State) (m : Memory) : (s.setFb m).status = s.status := rfl
@[simp] theorem State.setFb_sl (s : State) (m : Memory) : (s.setFb m).sl = s.sl := rfl
@[simp] theorem State.setFb_phase (s : State) (m : Memory) : (s.setFb m).phase = s.phase := rfl
@[simp] theorem State.setFb_fault (s : State) (m : Memory) : (s.setFb m).fault = s.fault := rfl
@[simp] theorem State.setFb_refused (s : State) (m : Memory) : (s.setFb m).refused = s.refused := rfl
@[simp] theorem State.setFb_trace (s : State) (m : Memory) : (s.setFb m).trace = s.trace := rfl
@[simp] theorem State.setFb_port (s : State) (m : Memory) : (s.setFb m).port = s.port := rfl

/-! ### setC -/

@[simp] theorem State.setC_fb (s : State) (n : Nat) : (s.setC n).fb = s.fb := rfl
@[simp] theorem State.setC_c (s : State) (n : Nat) : (s.setC n).c = n := rfl
@[simp] theorem State.setC_cfg (s : State) (n : Nat) : (s.setC n).cfg = s.cfg := rfl
@[simp] theorem State.setC_status (s : State) (n : Nat) : (s.setC n).status = s.status := rfl
@[simp] theorem State.setC_sl (s : State) (n : Nat) : (s.setC n).sl = s.sl := rfl
@[simp] theorem State.setC_phase (s : State) (n : Nat) : (s.setC n).phase = s.phase := rfl
@[simp] theorem State.setC_fault (s : State) (n : Nat) : (s.setC n).fault = s.fault := rfl
@[simp] theorem State.setC_refused (s : State) (n : Nat) : (s.setC n).refused = s.refused := rfl
@[simp] theorem State.setC_trace (s : State) (n : Nat) : (s.setC n).trace = s.trace := rfl
@[simp] theorem State.setC_port (s : State) (n : Nat) : (s.setC n).port = s.port := rfl

/-! ### setStatus -/

@[simp] theorem State.setStatus_fb (s : State) (v : Byte) : (s.setStatus v).fb = s.fb := rfl
@[simp] theorem State.setStatus_c (s : State) (v : Byte) : (s.setStatus v).c = s.c := rfl
@[simp] theorem State.setStatus_cfg (s : State) (v : Byte) : (s.setStatus v).cfg = s.cfg := rfl
@[simp] theorem State.setStatus_status (s : State) (v : Byte) : (s.setStatus v).status = v := rfl
@[simp] theorem State.setStatus_sl (s : State) (v : Byte) : (s.setStatus v).sl = s.sl := rfl
@[simp] theorem State.setStatus_phase (s : State) (v : Byte) : (s.setStatus v).phase = s.phase := rfl
@[simp] theorem State.setStatus_fault (s : State) (v : Byte) : (s.setStatus v).fault = s.fault := rfl
@[simp] theorem State.setStatus_refused (s : State) (v : Byte) : (s.setStatus v).refused = s.refused := rfl
@[simp] theorem State.setStatus_trace (s : State) (v : Byte) : (s.setStatus v).trace = s.trace := rfl
@[simp] theorem State.setStatus_port (s : State) (v : Byte) : (s.setStatus v).port = s.port := rfl

/-! ### setSl -/

@[simp] theorem State.setSl_fb (s : State) (r : Slicer) : (s.setSl r).fb = s.fb := rfl
@[simp] theorem State.setSl_c (s : State) (r : Slicer) : (s.setSl r).c = s.c := rfl
@[simp] theorem State.setSl_cfg (s : State) (r : Slicer) : (s.setSl r).cfg = s.cfg := rfl
@[simp] theorem State.setSl_status (s : State) (r : Slicer) : (s.setSl r).status = s.status := rfl
@[simp] theorem State.setSl_sl (s : State) (r : Slicer) : (s.setSl r).sl = r := rfl
@[simp] theorem State.setSl_phase (s : State) (r : Slicer) : (s.setSl r).phase = s.phase := rfl
@[simp] theorem State.setSl_fault (s : State) (r : Slicer) : (s.setSl r).fault = s.fault := rfl
@[simp] theorem State.setSl_refused (s : State) (r : Slicer) : (s.setSl r).refused = s.refused := rfl
@[simp] theorem State.setSl_trace (s : State) (r : Slicer) : (s.setSl r).trace = s.trace := rfl
@[simp] theorem State.setSl_port (s : State) (r : Slicer) : (s.setSl r).port = s.port := rfl

/-! ### setPhase -/

@[simp] theorem State.setPhase_fb (s : State) (p : Phase) : (s.setPhase p).fb = s.fb := rfl
@[simp] theorem State.setPhase_c (s : State) (p : Phase) : (s.setPhase p).c = s.c := rfl
@[simp] theorem State.setPhase_cfg (s : State) (p : Phase) : (s.setPhase p).cfg = s.cfg := rfl
@[simp] theorem State.setPhase_status (s : State) (p : Phase) : (s.setPhase p).status = s.status := rfl
@[simp] theorem State.setPhase_sl (s : State) (p : Phase) : (s.setPhase p).sl = s.sl := rfl
@[simp] theorem State.setPhase_phase (s : State) (p : Phase) : (s.setPhase p).phase = p := rfl
@[simp] theorem State.setPhase_fault (s : State) (p : Phase) : (s.setPhase p).fault = s.fault := rfl
@[simp] theorem State.setPhase_refused (s : State) (p : Phase) : (s.setPhase p).refused = s.refused := rfl
@[simp] theorem State.setPhase_trace (s : State) (p : Phase) : (s.setPhase p).trace = s.trace := rfl
@[simp] theorem State.setPhase_port (s : State) (p : Phase) : (s.setPhase p).port = s.port := rfl

/-! ### setFault -/

@[simp] theorem State.setFault_fb (s : State) (f : Option FaultMark) : (s.setFault f).fb = s.fb := rfl
@[simp] theorem State.setFault_c (s : State) (f : Option FaultMark) : (s.setFault f).c = s.c := rfl
@[simp] theorem State.setFault_cfg (s : State) (f : Option FaultMark) : (s.setFault f).cfg = s.cfg := rfl
@[simp] theorem State.setFault_status (s : State) (f : Option FaultMark) : (s.setFault f).status = s.status := rfl
@[simp] theorem State.setFault_sl (s : State) (f : Option FaultMark) : (s.setFault f).sl = s.sl := rfl
@[simp] theorem State.setFault_phase (s : State) (f : Option FaultMark) : (s.setFault f).phase = s.phase := rfl
@[simp] theorem State.setFault_fault (s : State) (f : Option FaultMark) : (s.setFault f).fault = f := rfl
@[simp] theorem State.setFault_refused (s : State) (f : Option FaultMark) : (s.setFault f).refused = s.refused := rfl
@[simp] theorem State.setFault_trace (s : State) (f : Option FaultMark) : (s.setFault f).trace = s.trace := rfl
@[simp] theorem State.setFault_port (s : State) (f : Option FaultMark) : (s.setFault f).port = s.port := rfl

/-! ### setRefused -/

@[simp] theorem State.setRefused_fb (s : State) (r : Option RefusedMark) : (s.setRefused r).fb = s.fb := rfl
@[simp] theorem State.setRefused_c (s : State) (r : Option RefusedMark) : (s.setRefused r).c = s.c := rfl
@[simp] theorem State.setRefused_cfg (s : State) (r : Option RefusedMark) : (s.setRefused r).cfg = s.cfg := rfl
@[simp] theorem State.setRefused_status (s : State) (r : Option RefusedMark) : (s.setRefused r).status = s.status := rfl
@[simp] theorem State.setRefused_sl (s : State) (r : Option RefusedMark) : (s.setRefused r).sl = s.sl := rfl
@[simp] theorem State.setRefused_phase (s : State) (r : Option RefusedMark) : (s.setRefused r).phase = s.phase := rfl
@[simp] theorem State.setRefused_fault (s : State) (r : Option RefusedMark) : (s.setRefused r).fault = s.fault := rfl
@[simp] theorem State.setRefused_refused (s : State) (r : Option RefusedMark) : (s.setRefused r).refused = r := rfl
@[simp] theorem State.setRefused_trace (s : State) (r : Option RefusedMark) : (s.setRefused r).trace = s.trace := rfl
@[simp] theorem State.setRefused_port (s : State) (r : Option RefusedMark) : (s.setRefused r).port = s.port := rfl

/-! ### setTrace -/

@[simp] theorem State.setTrace_fb (s : State) (es : List Event) : (s.setTrace es).fb = s.fb := rfl
@[simp] theorem State.setTrace_c (s : State) (es : List Event) : (s.setTrace es).c = s.c := rfl
@[simp] theorem State.setTrace_cfg (s : State) (es : List Event) : (s.setTrace es).cfg = s.cfg := rfl
@[simp] theorem State.setTrace_status (s : State) (es : List Event) : (s.setTrace es).status = s.status := rfl
@[simp] theorem State.setTrace_sl (s : State) (es : List Event) : (s.setTrace es).sl = s.sl := rfl
@[simp] theorem State.setTrace_phase (s : State) (es : List Event) : (s.setTrace es).phase = s.phase := rfl
@[simp] theorem State.setTrace_fault (s : State) (es : List Event) : (s.setTrace es).fault = s.fault := rfl
@[simp] theorem State.setTrace_refused (s : State) (es : List Event) : (s.setTrace es).refused = s.refused := rfl
@[simp] theorem State.setTrace_trace (s : State) (es : List Event) : (s.setTrace es).trace = es := rfl
@[simp] theorem State.setTrace_port (s : State) (es : List Event) : (s.setTrace es).port = s.port := rfl

/-! ### setPort -/

@[simp] theorem State.setPort_fb (s : State) (cs : List Command) : (s.setPort cs).fb = s.fb := rfl
@[simp] theorem State.setPort_c (s : State) (cs : List Command) : (s.setPort cs).c = s.c := rfl
@[simp] theorem State.setPort_cfg (s : State) (cs : List Command) : (s.setPort cs).cfg = s.cfg := rfl
@[simp] theorem State.setPort_status (s : State) (cs : List Command) : (s.setPort cs).status = s.status := rfl
@[simp] theorem State.setPort_sl (s : State) (cs : List Command) : (s.setPort cs).sl = s.sl := rfl
@[simp] theorem State.setPort_phase (s : State) (cs : List Command) : (s.setPort cs).phase = s.phase := rfl
@[simp] theorem State.setPort_fault (s : State) (cs : List Command) : (s.setPort cs).fault = s.fault := rfl
@[simp] theorem State.setPort_refused (s : State) (cs : List Command) : (s.setPort cs).refused = s.refused := rfl
@[simp] theorem State.setPort_trace (s : State) (cs : List Command) : (s.setPort cs).trace = s.trace := rfl
@[simp] theorem State.setPort_port (s : State) (cs : List Command) : (s.setPort cs).port = cs := rfl

/-! ### append -/

@[simp] theorem State.append_fb (s : State) (es : List Event) : (s.append es).fb = s.fb := rfl
@[simp] theorem State.append_c (s : State) (es : List Event) : (s.append es).c = s.c := rfl
@[simp] theorem State.append_cfg (s : State) (es : List Event) : (s.append es).cfg = s.cfg := rfl
@[simp] theorem State.append_status (s : State) (es : List Event) : (s.append es).status = s.status := rfl
@[simp] theorem State.append_sl (s : State) (es : List Event) : (s.append es).sl = s.sl := rfl
@[simp] theorem State.append_phase (s : State) (es : List Event) : (s.append es).phase = s.phase := rfl
@[simp] theorem State.append_fault (s : State) (es : List Event) : (s.append es).fault = s.fault := rfl
@[simp] theorem State.append_refused (s : State) (es : List Event) : (s.append es).refused = s.refused := rfl
@[simp] theorem State.append_trace (s : State) (es : List Event) : (s.append es).trace = s.trace ++ es := rfl
@[simp] theorem State.append_port (s : State) (es : List Event) : (s.append es).port = s.port := rfl

/-! ### What reset leaves (R190) -/

@[simp] theorem State.resetWith_fb (k : Cfg) : (State.resetWith k).fb = resetFb k := rfl
@[simp] theorem State.resetWith_c (k : Cfg) : (State.resetWith k).c = 0 := rfl
@[simp] theorem State.resetWith_cfg (k : Cfg) : (State.resetWith k).cfg = k := rfl
@[simp] theorem State.resetWith_status (k : Cfg) : (State.resetWith k).status = 0 := rfl
@[simp] theorem State.resetWith_sl (k : Cfg) : (State.resetWith k).sl = Slicer.reset := rfl
@[simp] theorem State.resetWith_phase (k : Cfg) : (State.resetWith k).phase = .idle := rfl
@[simp] theorem State.resetWith_fault (k : Cfg) : (State.resetWith k).fault = none := rfl
@[simp] theorem State.resetWith_refused (k : Cfg) : (State.resetWith k).refused = if cfgValid k then none else some .rfConfig := rfl
@[simp] theorem State.resetWith_trace (k : Cfg) : (State.resetWith k).trace = [] := rfl
@[simp] theorem State.resetWith_port (k : Cfg) : (State.resetWith k).port = [] := rfl

/-! ### The stop and acceptance conditions read the phase and the marks only -/

theorem State.stopped_iff (s : State) : s.stopped = true ↔ s.fault ≠ none ∨ s.refused ≠ none := by
  simp [State.stopped, Option.isSome_iff_ne_none]

theorem State.stopped_eq_false_iff (s : State) :
    s.stopped = false ↔ s.fault = none ∧ s.refused = none := by
  simp [State.stopped]

theorem State.accepts_iff (s : State) :
    s.accepts = true ↔ s.phase = .idle ∧ s.fault = none ∧ s.refused = none := by
  simp [State.accepts, State.stopped]

end Sys2Proof.Machine
end

