-- ==== Sys2Proof/Laws/Ops.lean ====
section
/-!
SUPPORT. One lemma for each shared operation that says what it does; later proofs cite these and do not
unfold the operations.
-/

namespace Sys2Proof.Machine

/-! ### Sequencing -/

@[simp] theorem Flow.bind_go (s : State) (f : State → Flow) : (Flow.go s).bind f = f s := rfl
@[simp] theorem Flow.bind_stop (s : State) (f : State → Flow) : (Flow.stop s).bind f = .stop s := rfl
@[simp] theorem Flow.bind_bad (e : Fault) (f : State → Flow) : (Flow.bad e).bind f = .bad e := rfl

@[simp] theorem runAll_nil (s : State) : runAll [] s = .go s := rfl

@[simp] theorem runAll_cons (f : State → Flow) (fs : List (State → Flow)) (s : State) :
    runAll (f :: fs) s = (f s).bind (runAll fs) := rfl

/-! ### Running an instruction -/

theorem runInternal_stopped {s : State} (op : State → Flow) (h : s.stopped = true) :
    runInternal op s = .next s := by simp [runInternal, h]

theorem runInternal_go {op : State → Flow} {s t : State} (h : s.stopped = false) (ho : op s = .go t) :
    runInternal op s = .next t := by simp [runInternal, h, ho]

theorem runInternal_stop {op : State → Flow} {s t : State} (h : s.stopped = false)
    (ho : op s = .stop t) : runInternal op s = .next t := by simp [runInternal, h, ho]

theorem runInternal_bad {op : State → Flow} {s : State} {e : Fault} (h : s.stopped = false)
    (ho : op s = .bad e) : runInternal op s = .fault e := by simp [runInternal, h, ho]

@[simp] theorem begun_fb (s : State) : (begun s).fb = s.fb := rfl
@[simp] theorem begun_c (s : State) : (begun s).c = s.c := rfl
@[simp] theorem begun_cfg (s : State) : (begun s).cfg = s.cfg := rfl
@[simp] theorem begun_status (s : State) : (begun s).status = 0#8 := rfl
@[simp] theorem begun_sl (s : State) : (begun s).sl = s.sl := rfl
@[simp] theorem begun_phase (s : State) : (begun s).phase = .busy := rfl
@[simp] theorem begun_fault (s : State) : (begun s).fault = s.fault := rfl
@[simp] theorem begun_refused (s : State) : (begun s).refused = s.refused := rfl
@[simp] theorem begun_trace (s : State) : (begun s).trace = s.trace := rfl
@[simp] theorem begun_port (s : State) : (begun s).port = s.port := rfl

theorem runCommand_held {s : State} (body : State → Flow) (h : s.accepts = false) :
    runCommand body s = .next s := by simp [runCommand, h]

theorem runCommand_go {body : State → Flow} {s t : State} (h : s.accepts = true)
    (hb : body (begun s) = .go t) : runCommand body s = .next (t.setPhase .idle) := by
  simp [runCommand, h, hb]

theorem runCommand_stop {body : State → Flow} {s t : State} (h : s.accepts = true)
    (hb : body (begun s) = .stop t) : runCommand body s = .next t := by
  simp [runCommand, h, hb]

/-- Every way a command can answer a next state. -/
theorem runCommand_next {body : State → Flow} {s u : State} (h : runCommand body s = .next u) :
    (s.accepts = false ∧ u = s) ∨
    (s.accepts = true ∧ ∃ t, body (begun s) = .go t ∧ u = t.setPhase .idle) ∨
    (s.accepts = true ∧ body (begun s) = .stop u) := by
  unfold runCommand at h
  split at h
  · rename_i ha
    split at h
    · rename_i t ht
      exact .inr (.inl ⟨ha, t, ht, by simpa using h.symm⟩)
    · rename_i t ht
      refine .inr (.inr ⟨ha, ?_⟩)
      have hu : t = u := by simpa using h
      rw [← hu]
      exact ht
    · cases h
  · rename_i ha
    exact .inl ⟨by simpa using ha, by simpa using h.symm⟩

/-- Every way an internal operation can answer a next state. -/
theorem runInternal_next {op : State → Flow} {s u : State} (h : runInternal op s = .next u) :
    (s.stopped = true ∧ u = s) ∨ (s.stopped = false ∧ (op s = .go u ∨ op s = .stop u)) := by
  unfold runInternal at h
  split at h
  · rename_i hs
    exact .inl ⟨hs, by simpa using h.symm⟩
  · rename_i hs
    refine .inr ⟨by simpa using hs, ?_⟩
    split at h
    · rename_i t ht
      have hu : t = u := by simpa using h
      rw [← hu]
      exact .inl ht
    · rename_i t ht
      have hu : t = u := by simpa using h
      rw [← hu]
      exact .inr ht
    · cases h

/-! ### Writing the FrameBuffer -/

theorem putByte_go {i : Nat} {s : State} (v : Byte) (h : i < s.cfg.cap) :
    putByte i v s = .go (s.setFb (s.fb.write i v)) := by
  simp [putByte, Nat.not_le.2 h]

theorem putByte_stop {i : Nat} {s : State} (v : Byte) (h : s.cfg.cap ≤ i) :
    putByte i v s = .stop (s.setFault (some (.overrun i))) := by
  simp [putByte, h, raiseOverrun]

theorem putBytes_go {i : Nat} {bs : List Byte} {s : State} (h : i + bs.length ≤ s.cfg.cap) :
    putBytes i bs s = .go (s.setFb (s.fb.writeAll i bs)) := by
  induction bs generalizing i s with
  | nil => rfl
  | cons b bs ih =>
    simp only [List.length_cons] at h
    rw [putBytes, putByte_go b (by omega), Flow.bind_go, ih (by simp; omega)]
    rfl

theorem putBytes_stop {i : Nat} {bs : List Byte} {s : State} (hb : bs ≠ [])
    (h : s.cfg.cap < i + bs.length) :
    putBytes i bs s =
      .stop ((s.setFb (s.fb.writeAll i (bs.take (s.cfg.cap - i)))).setFault
        (some (.overrun (max i s.cfg.cap)))) := by
  induction bs generalizing i s with
  | nil => exact absurd rfl hb
  | cons b bs ih =>
    simp only [List.length_cons] at h
    by_cases hi : s.cfg.cap ≤ i
    · rw [putBytes, putByte_stop b hi, Flow.bind_stop, Nat.sub_eq_zero_of_le hi, Nat.max_eq_left hi]
      rfl
    · have h1 : s.cfg.cap - i = (s.cfg.cap - (i + 1)) + 1 := by omega
      have hne : bs ≠ [] := by
        rintro rfl
        simp at h
        omega
      have h2 : max (i + 1) s.cfg.cap = max i s.cfg.cap := by omega
      rw [putBytes, putByte_go b (by omega), Flow.bind_go, ih hne (by simp; omega), h1]
      simp only [State.setFb_cfg, State.setFb_fb, h2]
      rfl

theorem appendBytes_go {bs : List Byte} {s : State} (h : s.c + 1 + bs.length ≤ s.cfg.cap) :
    appendBytes bs s =
      .go ((s.setFb (s.fb.writeAll (s.c + 1) bs)).setC (s.c + bs.length)) := by
  rw [appendBytes, putBytes_go h]
  rfl

theorem appendBytes_nil (s : State) : appendBytes [] s = .go s := rfl

theorem appendBytes_stop {bs : List Byte} {s : State} (hb : bs ≠ [])
    (h : s.cfg.cap < s.c + 1 + bs.length) :
    appendBytes bs s =
      .stop ((s.setFb (s.fb.writeAll (s.c + 1) (bs.take (s.cfg.cap - (s.c + 1))))).setFault
        (some (.overrun (max (s.c + 1) s.cfg.cap)))) := by
  rw [appendBytes, putBytes_stop hb h]
  rfl

/-- What writing the FrameBuffer may do, whether it goes on or stops: it changes FB, the cursor and the fault
mark, and reads the trace and the other registers not at all. -/
theorem putBytes_cases (i : Nat) (bs : List Byte) (s : State) :
    (i + bs.length ≤ s.cfg.cap ∨ bs = []) ∧ putBytes i bs s = .go (s.setFb (s.fb.writeAll i bs)) ∨
    (s.cfg.cap < i + bs.length ∧ bs ≠ []) ∧ putBytes i bs s =
      .stop ((s.setFb (s.fb.writeAll i (bs.take (s.cfg.cap - i)))).setFault
        (some (.overrun (max i s.cfg.cap)))) := by
  by_cases hb : bs = []
  · subst hb
    exact .inl ⟨.inr rfl, rfl⟩
  · by_cases h : i + bs.length ≤ s.cfg.cap
    · exact .inl ⟨.inl h, putBytes_go h⟩
    · exact .inr ⟨⟨by omega, hb⟩, putBytes_stop hb (by omega)⟩

/-! ### Building a frame -/

/-- The state in which FB holds `body` from the lead position up and the cursor stands on its last byte. -/
def withBody (s : State) (body : List Byte) : State :=
  (s.setFb (s.fb.writeAll (leadLen s.cfg.lead) body)).setC (leadLen s.cfg.lead + body.length - 1)

@[simp] theorem withBody_cfg (s : State) (body : List Byte) : (withBody s body).cfg = s.cfg := rfl
@[simp] theorem withBody_status (s : State) (body : List Byte) :
    (withBody s body).status = s.status := rfl
@[simp] theorem withBody_sl (s : State) (body : List Byte) : (withBody s body).sl = s.sl := rfl
@[simp] theorem withBody_phase (s : State) (body : List Byte) :
    (withBody s body).phase = s.phase := rfl
@[simp] theorem withBody_fault (s : State) (body : List Byte) :
    (withBody s body).fault = s.fault := rfl
@[simp] theorem withBody_refused (s : State) (body : List Byte) :
    (withBody s body).refused = s.refused := rfl
@[simp] theorem withBody_trace (s : State) (body : List Byte) :
    (withBody s body).trace = s.trace := rfl
@[simp] theorem withBody_port (s : State) (body : List Byte) : (withBody s body).port = s.port := rfl
@[simp] theorem withBody_fb (s : State) (body : List Byte) :
    (withBody s body).fb = s.fb.writeAll (leadLen s.cfg.lead) body := rfl
@[simp] theorem withBody_c (s : State) (body : List Byte) :
    (withBody s body).c = leadLen s.cfg.lead + body.length - 1 := rfl

/-- BEGIN puts the opcode at the lead position's end (R91). -/
theorem beginFrame_go {s : State} (op : Byte) (h : leadLen s.cfg.lead + 1 ≤ s.cfg.cap) :
    beginFrame op s = .go (withBody s [op]) := by
  unfold beginFrame withBody
  cases hl : s.cfg.lead with
  | none =>
    simp only [hl, leadLen] at h ⊢
    rw [putByte_go op (by simp; omega)]
    rfl
  | header b =>
    simp only [hl, leadLen] at h ⊢
    rw [wb, appendBytes_go (by simp [be1]; omega)]
    rfl

/-- A writer appends its bytes to the body. -/
theorem appendBytes_withBody {s : State} {body bs : List Byte} (hb : body ≠ [])
    (h : leadLen s.cfg.lead + body.length + bs.length ≤ s.cfg.cap) :
    appendBytes bs (withBody s body) = .go (withBody s (body ++ bs)) := by
  have hlen := List.length_pos_iff.2 hb
  have h1 : leadLen s.cfg.lead + body.length - 1 + 1 = leadLen s.cfg.lead + body.length := by omega
  rw [appendBytes_go (by simp; omega)]
  simp only [withBody_c, withBody_fb, h1]
  rw [← Memory.writeAll_append]
  have h2 : leadLen s.cfg.lead + body.length - 1 + bs.length =
      leadLen s.cfg.lead + (body ++ bs).length - 1 := by
    rw [List.length_append]
    omega
  rw [h2]
  rfl

/-- The bytes of FB from 0 up to the end of the body: the lead byte, if any, and the body. -/
theorem fbBytes_withBody {s : State} {body : List Byte} (hl : leadHeld s = true) :
    (List.range (leadLen s.cfg.lead + body.length)).map (fbByte (withBody s body)) =
      leadBytes s.cfg.lead ++ body := by
  apply List.ext_getElem?
  intro j
  cases hlead : s.cfg.lead with
  | none =>
    simp only [leadLen, leadBytes, Nat.zero_add, List.nil_append]
    by_cases hj : j < body.length
    · rw [List.getElem?_map, List.getElem?_range hj]
      simp only [Option.map_some, fbByte, withBody_fb, hlead, leadLen]
      rw [Memory.read?_writeAll, if_pos (by omega)]
      simp [List.getElem?_eq_getElem hj]
    · rw [List.getElem?_eq_none (by simpa using hj), List.getElem?_eq_none (by simpa using hj)]
  | header b =>
    simp only [leadHeld, hlead, decide_eq_true_eq] at hl
    simp only [leadLen, leadBytes]
    rcases j with _ | j
    · rw [List.getElem?_map, List.getElem?_range (by omega)]
      simp only [Option.map_some, fbByte, withBody_fb, hlead, leadLen]
      rw [Memory.read?_writeAll, if_neg (by omega), hl]
      rfl
    · by_cases hj : j < body.length
      · rw [List.getElem?_map, List.getElem?_range (by omega)]
        simp only [Option.map_some, fbByte, withBody_fb, hlead, leadLen]
        rw [Memory.read?_writeAll, if_pos (by omega)]
        simp [List.getElem?_eq_getElem hj]
      · rw [List.getElem?_eq_none (by simp; omega), List.getElem?_eq_none (by simp; omega)]

/-! ### The transport -/

@[simp] theorem paced_nil (us : Nat) : paced us [] = [] := rfl

@[simp] theorem paced_cons (us : Nat) (b : Byte) (bs : List Byte) :
    paced us (b :: bs) = .emit b :: .wait us :: paced us bs := rfl

theorem paced_append (us : Nat) (as bs : List Byte) :
    paced us (as ++ bs) = paced us as ++ paced us bs := by simp [paced]

@[simp] theorem length_paced (us : Nat) (bs : List Byte) : (paced us bs).length = 2 * bs.length := by
  induction bs with
  | nil => rfl
  | cons b bs ih => simp [ih]; omega

@[simp] theorem byteProjection_paced (us : Nat) (bs : List Byte) :
    byteProjection (paced us bs) = bs := by
  induction bs with
  | nil => rfl
  | cons b bs ih => simp [byteProjection, ih]

theorem byteProjection_append (xs ys : List Event) :
    byteProjection (xs ++ ys) = byteProjection xs ++ byteProjection ys := by
  induction xs with
  | nil => rfl
  | cons e xs ih => cases e <;> simp [byteProjection, ih]

@[simp] theorem byteProjection_emits (bs : List Byte) : byteProjection (bs.map .emit) = bs := by
  induction bs with
  | nil => rfl
  | cons b bs ih => simp [byteProjection, ih]

/-- The bytes of raw data do not depend on DATA_DELAY (R11). -/
@[simp] theorem byteProjection_rawEvents (k : Cfg) (bs : List Byte) :
    byteProjection (rawEvents k bs) = bs := by
  unfold rawEvents
  split
  · simp
  · simp [byteProjection_append, byteProjection]
  · simp

theorem sendBody_go {s : State} (h : s.c < s.cfg.cap) :
    sendBody s = .go ((s.setC (s.c + 1)).append
      (paced s.cfg.tByte ((List.range (s.c + 1)).map (fbByte s)))) := by
  simp [sendBody, Nat.not_lt.2 h]

theorem sendBody_bad {s : State} (h : s.cfg.cap ≤ s.c) :
    sendBody s = .bad (.readPastBuffer s.cfg.cap) := by
  simp [sendBody, Nat.lt_succ_of_le h]

theorem xmit_go {s : State} (h : s.c < s.cfg.cap) :
    xmit s = .go ((s.setC (s.c + 1)).append
      (paced s.cfg.tByte ((List.range (s.c + 1)).map (fbByte s) ++ termBytes s.cfg.term))) := by
  simp [xmit, sendBody_go h, sendTail, paced_append, State.append, State.setTrace, State.setC]

theorem xmit_bad {s : State} (h : s.cfg.cap ≤ s.c) :
    xmit s = .bad (.readPastBuffer s.cfg.cap) := by
  simp [xmit, sendBody_bad h]

/-- SENDBODY on a built frame sends the lead byte and the body (R60, R111). -/
theorem sendBody_withBody {s : State} {body : List Byte} (hb : body ≠ [])
    (h : leadLen s.cfg.lead + body.length ≤ s.cfg.cap) (hl : leadHeld s = true) :
    sendBody (withBody s body) =
      .go (((withBody s body).setC (leadLen s.cfg.lead + body.length)).append
        (paced s.cfg.tByte (leadBytes s.cfg.lead ++ body))) := by
  have hlen := List.length_pos_iff.2 hb
  have h1 : leadLen s.cfg.lead + body.length - 1 + 1 = leadLen s.cfg.lead + body.length := by omega
  rw [sendBody_go (by simp; omega)]
  simp only [withBody_c, withBody_cfg, h1]
  rw [fbBytes_withBody hl]

/-- XMIT on a built frame sends the lead byte, the body and the terminator (R60, R113). -/
theorem xmit_withBody {s : State} {body : List Byte} (hb : body ≠ [])
    (h : leadLen s.cfg.lead + body.length ≤ s.cfg.cap) (hl : leadHeld s = true) :
    xmit (withBody s body) =
      .go (((withBody s body).setC (leadLen s.cfg.lead + body.length)).append
        (paced s.cfg.tByte (leadBytes s.cfg.lead ++ body ++ termBytes s.cfg.term))) := by
  have hlen := List.length_pos_iff.2 hb
  have h1 : leadLen s.cfg.lead + body.length - 1 + 1 = leadLen s.cfg.lead + body.length := by omega
  rw [xmit_go (by simp; omega)]
  simp only [withBody_c, withBody_cfg, h1]
  rw [fbBytes_withBody hl]

theorem memRead?_some {data : List Byte} {j0 n : Nat} (h : n ≤ data.length - j0) :
    memRead? data j0 n = some ((data.drop j0).take n) := by
  simp [memRead?, h]

theorem memRead?_none {data : List Byte} {j0 n : Nat} (h : data.length - j0 < n) :
    memRead? data j0 n = none := by
  simp [memRead?]
  omega

theorem rawOut_go {data : List Byte} {j0 n : Nat} (s : State) (h : n ≤ data.length - j0) :
    rawOut data j0 n s = .go (s.append (rawEvents s.cfg ((data.drop j0).take n))) := by
  simp [rawOut, memRead?_some h]

theorem rawOut_bad {data : List Byte} {j0 n : Nat} (s : State) (h : data.length - j0 < n) :
    rawOut data j0 n s = .bad (.payloadReadPastEnd data.length) := by
  simp [rawOut, memRead?_none h]

end Sys2Proof.Machine
end

