-- ==== Sys2Proof/Laws/Frames.lean ====
section
/-!
SUPPORT. Building and sending one frame (R130): BEGIN, the writers in order, XMIT.
-/

namespace Sys2Proof.Machine

theorem leadHeld_iff (s : State) :
    leadHeld s = true ↔ ∀ b, s.cfg.lead = .header b → s.fb.read? 0 = some b := by
  unfold leadHeld
  split
  · rename_i h
    simp [h]
  · rename_i b h
    simp [h]

/-- The state after a frame with the given body has been built and sent (R111, R113). -/
def sent (s : State) (body : List Byte) : State :=
  ((withBody s body).setC (leadLen s.cfg.lead + body.length)).append
    (paced s.cfg.tByte (leadBytes s.cfg.lead ++ body ++ termBytes s.cfg.term))

@[simp] theorem sent_cfg (s : State) (body : List Byte) : (sent s body).cfg = s.cfg := rfl
@[simp] theorem sent_status (s : State) (body : List Byte) : (sent s body).status = s.status := rfl
@[simp] theorem sent_sl (s : State) (body : List Byte) : (sent s body).sl = s.sl := rfl
@[simp] theorem sent_phase (s : State) (body : List Byte) : (sent s body).phase = s.phase := rfl
@[simp] theorem sent_fault (s : State) (body : List Byte) : (sent s body).fault = s.fault := rfl
@[simp] theorem sent_refused (s : State) (body : List Byte) : (sent s body).refused = s.refused := rfl
@[simp] theorem sent_port (s : State) (body : List Byte) : (sent s body).port = s.port := rfl
@[simp] theorem sent_fb (s : State) (body : List Byte) :
    (sent s body).fb = s.fb.writeAll (leadLen s.cfg.lead) body := rfl
@[simp] theorem sent_c (s : State) (body : List Byte) :
    (sent s body).c = leadLen s.cfg.lead + body.length := rfl
@[simp] theorem sent_trace (s : State) (body : List Byte) :
    (sent s body).trace = s.trace ++
      paced s.cfg.tByte (leadBytes s.cfg.lead ++ body ++ termBytes s.cfg.term) := rfl

theorem xmit_sent {s : State} {body : List Byte} (hb : body ≠ [])
    (h : leadLen s.cfg.lead + body.length ≤ s.cfg.cap) (hl : leadHeld s = true) :
    xmit (withBody s body) = .go (sent s body) := xmit_withBody hb h hl

/-- A run of writers appends their bytes to the body. -/
theorem runAll_writers {s : State} {body : List Byte} (hb : body ≠ []) (bss : List (List Byte))
    (fs : List (State → Flow))
    (h : leadLen s.cfg.lead + body.length + bss.flatten.length ≤ s.cfg.cap) :
    runAll (bss.map appendBytes ++ fs) (withBody s body) =
      runAll fs (withBody s (body ++ bss.flatten)) := by
  induction bss generalizing body with
  | nil => simp
  | cons bs bss ih =>
    simp only [List.flatten_cons, List.length_append] at h
    simp only [List.map_cons, List.cons_append, runAll_cons, List.flatten_cons]
    rw [appendBytes_withBody hb (by omega), Flow.bind_go,
      ih (by simp [hb]) (by simp only [List.length_append]; omega), List.append_assoc]

/-- BEGIN and a run of writers build a body. -/
theorem runAll_build {s : State} (op : Byte) (bss : List (List Byte)) (fs : List (State → Flow))
    (h : leadLen s.cfg.lead + 1 + bss.flatten.length ≤ s.cfg.cap) :
    runAll (beginFrame op :: (bss.map appendBytes ++ fs)) s =
      runAll fs (withBody s (op :: bss.flatten)) := by
  rw [runAll_cons, beginFrame_go op (by omega), Flow.bind_go,
    runAll_writers (by simp) bss fs (by simpa using h)]
  rfl

/-- BEGIN, a run of writers and XMIT send one frame. -/
theorem runAll_frame {s : State} (op : Byte) (bss : List (List Byte))
    (h : leadLen s.cfg.lead + 1 + bss.flatten.length ≤ s.cfg.cap) (hl : leadHeld s = true) :
    runAll (beginFrame op :: (bss.map appendBytes ++ [xmit])) s =
      .go (sent s (op :: bss.flatten)) := by
  rw [runAll_build op bss _ h, runAll_cons, xmit_sent (by simp) (by simp only [List.length_cons]; omega) hl]
  rfl

/-- R13 as arithmetic. -/
theorem cfgValid_iff (k : Cfg) : cfgValid k = true ↔
    16 + leadLen k.lead ≤ k.cap ∧ 1 ≤ k.w ∧ k.w ≤ 65536 ∧ 1 ≤ k.h ∧ k.h ≤ 65536 ∧
      1 ≤ k.chunkMax ∧ 1 ≤ k.lMax := by
  simp only [cfgValid, Bool.and_eq_true, decide_eq_true_eq, and_assoc]

/-- The fixed frames fit in a valid configuration's buffer (R13, R197). -/
theorem cap_of_valid {k : Cfg} (h : cfgValid k = true) : leadLen k.lead + 16 ≤ k.cap := by
  simp only [cfgValid, Bool.and_eq_true, decide_eq_true_eq] at h
  omega

theorem chunkMax_of_valid {k : Cfg} (h : cfgValid k = true) : 1 ≤ k.chunkMax := by
  simp only [cfgValid, Bool.and_eq_true, decide_eq_true_eq] at h
  omega

theorem w_of_valid {k : Cfg} (h : cfgValid k = true) : 1 ≤ k.w ∧ k.w ≤ 65536 := by
  simp only [cfgValid, Bool.and_eq_true, decide_eq_true_eq] at h
  omega

theorem h_of_valid {k : Cfg} (h : cfgValid k = true) : 1 ≤ k.h ∧ k.h ≤ 65536 := by
  simp only [cfgValid, Bool.and_eq_true, decide_eq_true_eq] at h
  omega

theorem ready_accepts {s : State} (h : Ready s) : s.accepts = true :=
  (State.accepts_iff s).2 ⟨h.idle, h.noFault, h.noRefusal⟩

/-- A sent frame seen from outside the envelope. -/
theorem sendsFrame_sent {s : State} (h : s.phase = .idle) (body : List Byte) (status : Byte) :
    SendsFrame s ((sent ((begun s).setStatus status) body).setPhase .idle) body status := by
  refine ⟨?_, fun k hk => ?_, fun j hj => ?_⟩
  · cases s
    cases h
    rfl
  · exact Memory.read?_writeAll_inside _ _ _ _ hk
  · exact Memory.read?_writeAll_outside _ _ hj

/-! ### The string writer -/

/-- A command whose statements are BEGIN, writers of at most 15 bytes and XMIT sends one frame. -/
theorem runCommand_frame {s : State} (hr : Ready s) {body : State → Flow} (op : Byte)
    (bss : List (List Byte)) (v : Byte) (hlen : bss.flatten.length ≤ 15)
    (hb : body (begun s) =
      runAll (beginFrame op :: (bss.map appendBytes ++ [xmit])) ((begun s).setStatus v)) :
    ∃ t, runCommand body s = .next t ∧ SendsFrame s t (op :: bss.flatten) v := by
  have hc := cap_of_valid hr.valid
  refine ⟨_, runCommand_go (ready_accepts hr) (hb.trans (runAll_frame op bss ?_ hr.lead)),
    sendsFrame_sent hr.idle _ _⟩
  show leadLen s.cfg.lead + 1 + bss.flatten.length ≤ s.cfg.cap
  omega

theorem textOnWire_eq (src : TextSource) :
    textOnWire src = (sourceBytes src).take (textLen (sourceBytes src)) := by
  have key : ∀ bs : List Byte, bs.takeWhile (· != 0#8) = bs.take (textLen bs) := by
    intro bs
    induction bs with
    | nil => rfl
    | cons b bs ih =>
      by_cases h : b = 0#8
      · simp [textLen, h]
      · simp [textLen, h, ih]
  cases src <;> simp [textOnWire, sourceBytes, key]

theorem textLen_le (bs : List Byte) : textLen bs ≤ bs.length := by
  induction bs with
  | nil => simp [textLen]
  | cons b bs ih =>
    by_cases h : b = 0#8
    · simp [textLen, h]
    · simp [textLen, h, ih]

theorem length_textOnWire (src : TextSource) :
    (textOnWire src).length = textLen (sourceBytes src) := by
  rw [textOnWire_eq, List.length_take, Nat.min_eq_left (textLen_le _)]

theorem zero_not_mem_textOnWire (src : TextSource) : 0#8 ∉ textOnWire src := by
  have key : ∀ bs : List Byte, 0#8 ∉ bs.takeWhile (· != 0#8) := fun bs h => by
    simpa using List.mem_takeWhile_imp h
  cases src
  · simp [textOnWire]
  · exact key _
  · exact key _

/-- WS in terms of the bytes a text has on the wire (R95, R96). -/
theorem ws_eq (src : TextSource) (s : State) :
    ws src s = (appendBytes ((textOnWire src).take (remaining s.cfg s.c)) s).bind fun t =>
      .go (if remaining s.cfg s.c < (textOnWire src).length then setStatusBit truncBit t else t) := by
  rw [length_textOnWire, textOnWire_eq, List.take_take]
  unfold ws
  by_cases h : textLen (sourceBytes src) = 0
  · simp [h, appendBytes_nil]
  · have h2 : min (remaining s.cfg s.c) (textLen (sourceBytes src)) < textLen (sourceBytes src) ↔
        remaining s.cfg s.c < textLen (sourceBytes src) := by omega
    simp only [h, if_false, h2]

theorem withBody_setStatus (s : State) (body : List Byte) (v : Byte) :
    (withBody s body).setStatus v = withBody (s.setStatus v) body := rfl

/-- WS on a body being built, when the bytes it copies fit. -/
theorem ws_withBody {s : State} {body : List Byte} (hb : body ≠ []) (src : TextSource)
    (h : leadLen s.cfg.lead + body.length +
      ((textOnWire src).take (remaining s.cfg (leadLen s.cfg.lead + body.length - 1))).length ≤
        s.cfg.cap) :
    ws src (withBody s body) =
      .go (withBody (s.setStatus
        (if remaining s.cfg (leadLen s.cfg.lead + body.length - 1) < (textOnWire src).length
          then s.status ||| truncBit else s.status))
        (body ++ (textOnWire src).take
          (remaining s.cfg (leadLen s.cfg.lead + body.length - 1)))) := by
  rw [ws_eq]
  simp only [withBody_cfg, withBody_c]
  rw [appendBytes_withBody hb h, Flow.bind_go]
  by_cases hlt : remaining s.cfg (leadLen s.cfg.lead + body.length - 1) < (textOnWire src).length
  · simp only [hlt, if_true]
    rfl
  · simp only [hlt, if_false]
    rfl

end Sys2Proof.Machine
end

