-- ==== Sys2Proof/Laws/Keeps.lean ====
section
/-!
SUPPORT. What no piece of pseudocode changes, whether it goes on or stops: CFG, the port, the phase, the
events already in the trace and the memory outside the buffer; and what only few operations change: SL, the
refusal mark and STATUS.
-/

namespace Sys2Proof.Machine

/-- From `s` to `t`, CFG, the port, the phase, the events so far and the cells outside the buffer are kept, and
so is the form of the memory. -/
structure Keeps (s t : State) : Prop where
  cfg : t.cfg = s.cfg
  port : t.port = s.port
  phase : t.phase = s.phase
  trace : ∃ es, t.trace = s.trace ++ es
  outside : ∀ j, s.cfg.cap ≤ j → t.fb.read? j = s.fb.read? j
  canonical : s.fb.wf = true → t.fb.wf = true
  inBuffer : s.fb.below s.cfg.cap = true → t.fb.below s.cfg.cap = true

/-- `Keeps`, and SL, the refusal mark and STATUS are kept. -/
structure Calm (s t : State) : Prop where
  keeps : Keeps s t
  sl : t.sl = s.sl
  refused : t.refused = s.refused
  status : t.status = s.status

theorem Keeps.refl (s : State) : Keeps s s :=
  ⟨rfl, rfl, rfl, ⟨[], by simp⟩, fun _ _ => rfl, id, id⟩

theorem Keeps.trans {s t u : State} (h : Keeps s t) (h' : Keeps t u) : Keeps s u := by
  obtain ⟨es, he⟩ := h.trace
  obtain ⟨es', he'⟩ := h'.trace
  exact ⟨h'.cfg.trans h.cfg, h'.port.trans h.port, h'.phase.trans h.phase,
    ⟨es ++ es', by rw [he', he, List.append_assoc]⟩,
    fun j hj => (h'.outside j (by rw [h.cfg]; exact hj)).trans (h.outside j hj),
    fun hw => h'.canonical (h.canonical hw),
    fun hb => by
      have := h'.inBuffer (by rw [h.cfg]; exact h.inBuffer hb)
      rwa [h.cfg] at this⟩

theorem Calm.refl (s : State) : Calm s s := ⟨.refl s, rfl, rfl, rfl⟩

theorem Calm.trans {s t u : State} (h : Calm s t) (h' : Calm t u) : Calm s u :=
  ⟨h.keeps.trans h'.keeps, h'.sl.trans h.sl, h'.refused.trans h.refused, h'.status.trans h.status⟩

/-- Every state a flow ends in satisfies `P`. -/
def Flow.Sat (P : State → Prop) : Flow → Prop
  | .go t => P t
  | .stop t => P t
  | .bad _ => True

theorem Flow.Sat.mono {P Q : State → Prop} {x : Flow} (h : x.Sat P) (hpq : ∀ t, P t → Q t) :
    x.Sat Q := by
  cases x <;> first | exact hpq _ h | exact trivial

theorem Flow.sat_bind {R : State → State → Prop} (htr : ∀ a b c, R a b → R b c → R a c)
    {s : State} {x : Flow} {f : State → Flow} (hx : x.Sat (R s)) (hf : ∀ t, (f t).Sat (R t)) :
    (x.bind f).Sat (R s) := by
  cases x with
  | go t => exact (hf t).mono fun u hu => htr _ _ _ hx hu
  | stop t => exact hx
  | bad e => exact trivial

theorem runAll_sat {R : State → State → Prop} (hrefl : ∀ s, R s s)
    (htr : ∀ a b c, R a b → R b c → R a c) {fs : List (State → Flow)}
    (h : ∀ f ∈ fs, ∀ s, (f s).Sat (R s)) (s : State) : (runAll fs s).Sat (R s) := by
  induction fs generalizing s with
  | nil => exact hrefl s
  | cons f fs ih =>
    exact Flow.sat_bind (R := R) htr (h f (by simp) s) fun t => ih (fun g hg => h g (by simp [hg])) t

theorem runInternal_sat {R : State → State → Prop} (hrefl : ∀ s, R s s) {op : State → Flow}
    {s u : State} (hop : (op s).Sat (R s)) (h : runInternal op s = .next u) : R s u := by
  rcases runInternal_next h with ⟨-, rfl⟩ | ⟨-, h1 | h1⟩
  · exact hrefl u
  · rw [h1] at hop; exact hop
  · rw [h1] at hop; exact hop

/-! ### The operations -/

theorem putBytes_calm (i : Nat) (bs : List Byte) (s : State) : (putBytes i bs s).Sat (Calm s) := by
  have main : ∀ (cs : List Byte) (f : Option FaultMark), i + cs.length ≤ s.cfg.cap ∨ cs = [] →
      Calm s ((s.setFb (s.fb.writeAll i cs)).setFault f) := by
    intro cs f h
    refine ⟨⟨rfl, rfl, rfl, ⟨[], by simp⟩, fun j hj => ?_, fun hw => Memory.wf_writeAll i cs hw,
      fun hb => ?_⟩, rfl, rfl, rfl⟩
    · rcases h with h | rfl
      · exact Memory.read?_writeAll_outside _ _ (by omega)
      · rfl
    · rcases h with h | rfl
      · exact Memory.below_writeAll cs h hb
      · exact hb
  rcases putBytes_cases i bs s with ⟨h, he⟩ | ⟨h, he⟩
  · rw [he]
    exact main bs s.fault h
  · rw [he]
    refine main _ _ ?_
    by_cases hi : i ≤ s.cfg.cap
    · left
      rw [List.length_take]
      omega
    · right
      rw [show s.cfg.cap - i = 0 by omega, List.take_zero]

theorem putByte_calm (i : Nat) (v : Byte) (s : State) : (putByte i v s).Sat (Calm s) := by
  have h := putBytes_calm i [v] s
  have h2 : putBytes i [v] s = putByte i v s := by
    simp only [putBytes]
    cases putByte i v s <;> rfl
  rwa [h2] at h

theorem appendBytes_calm (bs : List Byte) (s : State) : (appendBytes bs s).Sat (Calm s) :=
  Flow.sat_bind (R := Calm) (fun _ _ _ => Calm.trans) (putBytes_calm _ _ s) fun _ =>
    ⟨⟨rfl, rfl, rfl, ⟨[], by simp⟩, fun _ _ => rfl, id, id⟩, rfl, rfl, rfl⟩

theorem wb_calm (v : Byte) (s : State) : (wb v s).Sat (Calm s) := appendBytes_calm _ s
theorem ww_calm (v : Word16) (s : State) : (ww v s).Sat (Calm s) := appendBytes_calm _ s
theorem wl_calm (v : Word32) (s : State) : (wl v s).Sat (Calm s) := appendBytes_calm _ s

theorem setC_calm (s : State) (n : Nat) : Calm s (s.setC n) :=
  ⟨⟨rfl, rfl, rfl, ⟨[], by simp⟩, fun _ _ => rfl, id, id⟩, rfl, rfl, rfl⟩

theorem append_calm (s : State) (es : List Event) : Calm s (s.append es) :=
  ⟨⟨rfl, rfl, rfl, ⟨es, rfl⟩, fun _ _ => rfl, id, id⟩, rfl, rfl, rfl⟩

theorem beginFrame_calm (op : Byte) (s : State) : (beginFrame op s).Sat (Calm s) := by
  unfold beginFrame
  cases s.cfg.lead with
  | none => exact (putByte_calm 0 op _).mono fun _ h => (setC_calm s 0).trans h
  | header _ => exact (wb_calm op _).mono fun _ h => (setC_calm s 0).trans h

theorem sendBody_calm (s : State) : (sendBody s).Sat (Calm s) := by
  unfold sendBody
  split
  · exact trivial
  · exact (setC_calm s _).trans (append_calm _ _)

theorem sendTail_calm (s : State) : (sendTail s).Sat (Calm s) := append_calm s _

theorem xmit_calm (s : State) : (xmit s).Sat (Calm s) :=
  Flow.sat_bind (R := Calm) (fun _ _ _ => Calm.trans) (sendBody_calm s) fun t =>
    Flow.sat_bind (R := Calm) (fun _ _ _ => Calm.trans) (sendTail_calm t) Calm.refl

theorem rawOut_calm (data : List Byte) (j0 n : Nat) (s : State) :
    (rawOut data j0 n s).Sat (Calm s) := by
  unfold rawOut
  split
  · exact append_calm s _
  · exact trivial

/-- The operations of the transmitter leave FB alone. -/
theorem xmit_fb (s : State) : (xmit s).Sat fun t => t.fb = s.fb := by
  by_cases h : s.c < s.cfg.cap
  · rw [xmit_go h]
    exact rfl
  · rw [xmit_bad (by omega)]
    exact trivial

/-- `Keeps` and SL and the refusal mark are kept, and no STATUS bit but TRUNC is set. -/
structure CalmButTrunc (s t : State) : Prop where
  keeps : Keeps s t
  sl : t.sl = s.sl
  refused : t.refused = s.refused
  status : ∀ b, t.status.getLsbD b = true → s.status.getLsbD b = true ∨ b = 0

theorem Calm.butTrunc {s t : State} (h : Calm s t) : CalmButTrunc s t :=
  ⟨h.keeps, h.sl, h.refused, fun b hb => .inl (by rw [← h.status]; exact hb)⟩

theorem CalmButTrunc.trans {s t u : State} (h : CalmButTrunc s t) (h' : CalmButTrunc t u) :
    CalmButTrunc s u :=
  ⟨h.keeps.trans h'.keeps, h'.sl.trans h.sl, h'.refused.trans h.refused, fun b hb => by
    rcases h'.status b hb with h1 | h1
    · exact h.status b h1
    · exact .inr h1⟩

theorem ws_butTrunc (src : TextSource) (s : State) : (ws src s).Sat (CalmButTrunc s) := by
  rw [ws_eq]
  refine Flow.sat_bind (R := CalmButTrunc) (fun _ _ _ => CalmButTrunc.trans) ((appendBytes_calm _ s).mono fun _ h => h.butTrunc)
    fun t => ?_
  split
  · refine ⟨⟨rfl, rfl, rfl, ⟨[], by simp [setStatusBit]⟩, fun _ _ => rfl, id, id⟩, rfl, rfl, fun b hb => ?_⟩
    simp only [setStatusBit, State.setStatus_status, BitVec.getLsbD_or, Bool.or_eq_true] at hb
    rcases hb with h1 | h1
    · exact .inl h1
    · refine .inr ?_
      rcases b with _ | b
      · rfl
      · simp [truncBit, BitVec.getLsbD_one] at h1
  · exact (Calm.refl t).butTrunc

end Sys2Proof.Machine
end

