-- ==== Sys2Proof/Laws/MemWriter.lean ====
section
/-!
SUPPORT. The chunk loop of MEM_WRITE (43_chunked_memory_writer): one iteration, then the loop by induction on
the payload bytes left.
-/

namespace Sys2Proof.Machine

/-- The header body of the current chunk, from SL (R150). -/
def slHeader (s : State) : List Byte := [0x31#8, s.sl.type] ++ be2 (chunkAddr s)

/-- The state after one sub-frame: header in FB, the sub-frame's events in the trace, SL advanced (R150). -/
def chunkSent (data : List Byte) (s : State) : State :=
  slicerAdvance ((((withBody (slicerChunk s) (slHeader s)).setC (leadLen s.cfg.lead + 4)).append
    (paced s.cfg.tByte (leadBytes s.cfg.lead ++ slHeader s) ++
      rawEvents s.cfg ((data.drop (s.sl.idx * s.cfg.chunkMax)).take (min s.cfg.chunkMax s.sl.rem)) ++
      paced s.cfg.tByte (termBytes s.cfg.term))))

/-- One iteration sends one sub-frame. -/
theorem sendChunk_go {data : List Byte} {s : State} (hcap : leadLen s.cfg.lead + 4 ≤ s.cfg.cap)
    (hl : leadHeld s = true) (hrem : s.sl.idx * s.cfg.chunkMax + s.sl.rem ≤ data.length) :
    sendChunk data s = .go (chunkSent data s) := by
  have hl' : leadHeld (slicerChunk s) = true := hl
  have hbody : slHeader s = 0x31#8 :: ([[s.sl.type], be2 (chunkAddr s)] : List (List Byte)).flatten := by
    simp [slHeader]
  have hlen : (slHeader s).length = 4 := by simp [slHeader, be2]
  have hw : ∀ fs, runAll (beginFrame 0x31#8 :: (fun s => wb s.sl.type s) ::
      (fun s => ww (chunkAddr s) s) :: fs) (slicerChunk s) =
      runAll fs (withBody (slicerChunk s) (slHeader s)) := by
    intro fs
    rw [hbody]
    have h1 := runAll_build (s := slicerChunk s) 0x31#8
      ([[s.sl.type], be2 (chunkAddr s)] : List (List Byte)) fs
      (by
        have : (slicerChunk s).cfg = s.cfg := rfl
        rw [this]
        simp [be2]
        omega)
    rw [← h1]
    simp only [runAll_cons, beginFrame_go (s := slicerChunk s) 0x31#8
      (show leadLen s.cfg.lead + 1 ≤ s.cfg.cap by omega), Flow.bind_go, List.map_cons, List.map_nil,
      List.cons_append, List.nil_append]
    have h2 : wb (withBody (slicerChunk s) [0x31#8]).sl.type (withBody (slicerChunk s) [0x31#8]) =
        appendBytes [s.sl.type] (withBody (slicerChunk s) [0x31#8]) := rfl
    rw [h2, appendBytes_withBody (by simp) (by
      have : (slicerChunk s).cfg = s.cfg := rfl
      rw [this]
      simp
      omega)]
    rfl
  unfold sendChunk
  rw [runAll_cons, Flow.bind_go, hw, runAll_cons,
    sendBody_withBody (by simp [slHeader]) (by
      have : (slicerChunk s).cfg = s.cfg := rfl
      rw [this, hlen]
      omega) hl', Flow.bind_go, runAll_cons]
  have hn : min s.cfg.chunkMax s.sl.rem ≤ data.length - s.sl.idx * s.cfg.chunkMax := by omega
  have hr : ∀ q : State, q.cfg = s.cfg → q.sl = (slicerChunk s).sl →
      rawOut data (q.sl.idx * q.cfg.chunkMax) q.sl.n q =
        .go (q.append (rawEvents s.cfg
          ((data.drop (s.sl.idx * s.cfg.chunkMax)).take (min s.cfg.chunkMax s.sl.rem)))) := by
    intro q hq1 hq2
    rw [hq1, hq2]
    rw [rawOut_go q (show (slicerChunk s).sl.n ≤
      data.length - (slicerChunk s).sl.idx * s.cfg.chunkMax from hn), hq1]
    rfl
  generalize hq : ((withBody (slicerChunk s) (slHeader s)).setC _).append _ = q
  rw [hr q (by rw [← hq]; rfl) (by rw [← hq]; rfl), Flow.bind_go, runAll_cons, sendTail, Flow.bind_go,
    runAll_cons, Flow.bind_go, runAll_nil, ← hq]
  unfold chunkSent
  rw [hlen]
  simp only [State.append, State.setTrace, slicerAdvance, State.setSl, List.append_assoc]
  rfl

@[simp] theorem chunkSent_cfg (data : List Byte) (s : State) : (chunkSent data s).cfg = s.cfg := rfl
@[simp] theorem chunkSent_status (data : List Byte) (s : State) :
    (chunkSent data s).status = s.status := rfl
@[simp] theorem chunkSent_phase (data : List Byte) (s : State) :
    (chunkSent data s).phase = s.phase := rfl
@[simp] theorem chunkSent_fault (data : List Byte) (s : State) :
    (chunkSent data s).fault = s.fault := rfl
@[simp] theorem chunkSent_refused (data : List Byte) (s : State) :
    (chunkSent data s).refused = s.refused := rfl
@[simp] theorem chunkSent_port (data : List Byte) (s : State) :
    (chunkSent data s).port = s.port := rfl
@[simp] theorem chunkSent_c (data : List Byte) (s : State) :
    (chunkSent data s).c = leadLen s.cfg.lead + 4 := rfl
@[simp] theorem chunkSent_fb (data : List Byte) (s : State) :
    (chunkSent data s).fb = s.fb.writeAll (leadLen s.cfg.lead) (slHeader s) := rfl
@[simp] theorem chunkSent_trace (data : List Byte) (s : State) :
    (chunkSent data s).trace = s.trace ++
      (paced s.cfg.tByte (leadBytes s.cfg.lead ++ slHeader s) ++
        rawEvents s.cfg ((data.drop (s.sl.idx * s.cfg.chunkMax)).take (min s.cfg.chunkMax s.sl.rem)) ++
        paced s.cfg.tByte (termBytes s.cfg.term)) := rfl
@[simp] theorem chunkSent_sl (data : List Byte) (s : State) :
    (chunkSent data s).sl = { s.sl with
      rem := s.sl.rem - min s.cfg.chunkMax s.sl.rem
      idx := s.sl.idx + 1
      n := min s.cfg.chunkMax s.sl.rem } := rfl

theorem length_slHeader (s : State) : (slHeader s).length = 4 := by simp [slHeader, be2]

theorem leadHeld_chunkSent {data : List Byte} {s : State} (hl : leadHeld s = true) :
    leadHeld (chunkSent data s) = true := by
  rw [leadHeld_iff] at hl ⊢
  intro b hb
  have hb' : s.cfg.lead = .header b := hb
  rw [chunkSent_fb, Memory.read?_writeAll_outside _ _ (by simp [hb', leadLen])]
  exact hl b hb

theorem chunkCount_zero {k : Cfg} (h : 1 ≤ k.chunkMax) : chunkCount k 0 = 0 := by
  unfold chunkCount
  rw [Nat.zero_add]
  exact Nat.div_eq_of_lt (by omega)

/-- One chunk more than the rest needs. -/
theorem chunkCount_step {k : Cfg} {rem : Nat} (h : 1 ≤ k.chunkMax) (hr : 0 < rem) :
    chunkCount k rem = chunkCount k (rem - min k.chunkMax rem) + 1 := by
  unfold chunkCount
  rcases Nat.le_total k.chunkMax rem with hle | hle
  · rw [Nat.min_eq_left hle]
    have h1 : rem + k.chunkMax - 1 = (rem - k.chunkMax + k.chunkMax - 1) + k.chunkMax := by omega
    rw [h1, Nat.add_div_right _ (by omega)]
  · rw [Nat.min_eq_right hle, Nat.sub_self, Nat.zero_add, Nat.div_eq_of_lt (by omega : k.chunkMax - 1 < k.chunkMax)]
    have h1 : rem + k.chunkMax - 1 = (rem - 1) + k.chunkMax := by omega
    rw [h1, Nat.add_div_right _ (by omega), Nat.div_eq_of_lt (by omega)]

/-- The events of the sub-frames still to be sent. -/
def eventsLeft (data : List Byte) (s : State) : List Event :=
  ((List.range (chunkCount s.cfg s.sl.rem)).map (s.sl.idx + ·)).flatMap
    (chunkEvents s.cfg s.sl.base data)

/-- The chunk loop sends one sub-frame for each chunk left, in order. -/
theorem chunkLoop_go (data : List Byte) (fuel : Nat) (s : State) (hC : 1 ≤ s.cfg.chunkMax)
    (hcap : leadLen s.cfg.lead + 4 ≤ s.cfg.cap) (hl : leadHeld s = true) (ht : s.sl.type = 0x5A#8)
    (hrem : s.sl.rem = data.length - s.sl.idx * s.cfg.chunkMax) (hf : s.sl.rem ≤ fuel) :
    ∃ t, chunkLoop data fuel s = .go t ∧
      t = { s with fb := t.fb, c := t.c, sl := t.sl, trace := s.trace ++ eventsLeft data s } ∧
      t.sl.type = s.sl.type ∧ t.sl.base = s.sl.base ∧ t.sl.rem = 0 ∧
      t.sl.idx = s.sl.idx + chunkCount s.cfg s.sl.rem ∧
      (s.sl.rem = 0 → t = s) ∧
      (0 < s.sl.rem → t.c = leadLen s.cfg.lead + 4 ∧
        t.sl.n = data.length - (t.sl.idx - 1) * s.cfg.chunkMax ∧
        ∀ k, k < 4 → t.fb.read? (leadLen s.cfg.lead + k) =
          (chunkHeader s.cfg s.sl.base (t.sl.idx - 1))[leadLen s.cfg.lead + k]?) ∧
      (s.fb.wf = true → t.fb.wf = true) ∧
      (s.fb.below s.cfg.cap = true → t.fb.below s.cfg.cap = true) ∧
      (∀ j, j < leadLen s.cfg.lead ∨ leadLen s.cfg.lead + 4 ≤ j →
        t.fb.read? j = s.fb.read? j) := by
  induction fuel generalizing s with
  | zero =>
    have h0 : s.sl.rem = 0 := by omega
    refine ⟨s, by simp [chunkLoop, h0], ?_, rfl, rfl, h0, ?_, fun _ => rfl, fun h => ?_,
      id, id, fun _ _ => rfl⟩
    · simp [eventsLeft, h0, chunkCount_zero hC]
    · simp [h0, chunkCount_zero hC]
    · omega
  | succ fuel ih =>
    by_cases h0 : s.sl.rem = 0
    · refine ⟨s, by simp [chunkLoop, h0], ?_, rfl, rfl, h0, ?_, fun _ => rfl, fun h => ?_,
        id, id, fun _ _ => rfl⟩
      · simp [eventsLeft, h0, chunkCount_zero hC]
      · simp [h0, chunkCount_zero hC]
      · omega
    · have hpos : 0 < s.sl.rem := Nat.pos_of_ne_zero h0
      have hle : s.sl.idx * s.cfg.chunkMax + s.sl.rem ≤ data.length := by omega
      have hcount := chunkCount_step hC hpos
      have hmul : (s.sl.idx + 1) * s.cfg.chunkMax = s.sl.idx * s.cfg.chunkMax + s.cfg.chunkMax :=
        Nat.succ_mul _ _
      obtain ⟨t, hgo, hform, htype, hbase, hz, hidx, hsame, hlast, hwf, hbelow, hout⟩ :=
        ih (chunkSent data s) hC hcap (leadHeld_chunkSent hl) ht
          (by simp only [chunkSent_sl, chunkSent_cfg, hmul]; omega)
          (by simp only [chunkSent_sl]; omega)
      simp only [chunkSent_cfg, chunkSent_sl] at hform htype hbase hz hidx hsame hlast hbelow hout
      have hdata : (data.drop (s.sl.idx * s.cfg.chunkMax)).take (min s.cfg.chunkMax s.sl.rem) =
          chunkData s.cfg data s.sl.idx := by
        unfold chunkData
        rcases Nat.le_total s.cfg.chunkMax s.sl.rem with h1 | h1
        · rw [Nat.min_eq_left h1]
        · rw [Nat.min_eq_right h1, List.take_of_length_le (by simp; omega),
            List.take_of_length_le (by simp; omega)]
      have hhead : leadBytes s.cfg.lead ++ slHeader s = chunkHeader s.cfg s.sl.base s.sl.idx := by
        simp [chunkHeader, slHeader, ht, chunkAddr]
      have hidx' : t.sl.idx = s.sl.idx + chunkCount s.cfg s.sl.rem := by omega
      refine ⟨t, ?_, ?_, htype, hbase, hz, hidx', fun h => absurd h h0, fun _ => ?_, fun h => ?_,
        fun h => ?_, fun j hj => ?_⟩
      · simp only [chunkLoop, h0, if_false, sendChunk_go hcap hl hle, Flow.bind_go, hgo]
      · rw [hform]
        simp only [eventsLeft, chunkSent_trace, chunkSent_sl, chunkSent_cfg, hcount, hdata, hhead]
        rw [List.range_succ_eq_map]
        simp only [List.map_cons, List.map_map, List.flatMap_cons, List.append_assoc, Nat.add_zero]
        have hmap : ((s.sl.idx + 1 + ·) : Nat → Nat) = (s.sl.idx + ·) ∘ Nat.succ := by
          funext n
          simp [Function.comp]
          omega
        rw [hmap]
        simp only [chunkEvents, List.append_assoc]
        rfl
      · by_cases h1 : 0 < s.sl.rem - min s.cfg.chunkMax s.sl.rem
        · exact hlast h1
        · have h2 : s.sl.rem - min s.cfg.chunkMax s.sl.rem = 0 := by omega
          have h3 := hsame h2
          have h4 : min s.cfg.chunkMax s.sl.rem = s.sl.rem := by omega
          refine ⟨by rw [h3]; rfl, ?_, fun k hk => ?_⟩
          · rw [h3]
            simp only [chunkSent_sl, Nat.add_sub_cancel]
            omega
          · rw [h3]
            simp only [chunkSent_sl, chunkSent_fb, Nat.add_sub_cancel]
            rw [Memory.read?_writeAll_inside _ _ _ _ (by rw [length_slHeader]; exact hk), ← hhead]
            have h5 : (leadBytes s.cfg.lead).length = leadLen s.cfg.lead := by
              cases s.cfg.lead <;> rfl
            rw [List.getElem?_append_right (by omega), h5, Nat.add_sub_cancel_left,
              List.getElem?_eq_getElem (by rw [length_slHeader]; exact hk)]
      · exact hwf (Memory.wf_writeAll _ _ h)
      · refine hbelow (Memory.below_writeAll _ ?_ h)
        show leadLen s.cfg.lead + (slHeader s).length ≤ s.cfg.cap
        rw [length_slHeader]
        exact hcap
      · rw [hout j hj]
        exact Memory.read?_writeAll_outside _ _ (by rw [length_slHeader]; exact hj)

end Sys2Proof.Machine
end

