-- ==== Sys2Proof/Laws/Operands.lean ====
section
/-!
SUPPORT. The operand forms and flag bytes as arithmetic: clamped coordinates and their STATUS bits (R131), the
flag bytes (R69, R70).
-/

namespace Sys2Proof.Machine

theorem clampedX_eq {k : Cfg} (h : cfgValid k = true) (x : Word16) :
    clampedX k x = BitVec.ofNat 16 (min x.toNat (k.w - 1)) := by
  have := w_of_valid h
  unfold clampedX
  split
  · rw [Nat.min_eq_right (by omega)]
  · rw [Nat.min_eq_left (by omega)]
    simp

theorem clampedY_eq {k : Cfg} (h : cfgValid k = true) (y : Word16) :
    clampedY k y = BitVec.ofNat 16 (min y.toNat (k.h - 1)) := by
  have := h_of_valid h
  unfold clampedY
  split
  · rw [Nat.min_eq_right (by omega)]
  · rw [Nat.min_eq_left (by omega)]
    simp

/-- The STATUS after both clamps of a command that has just begun. -/
theorem markClamps_begun {s : State} (h : cfgValid s.cfg = true) (x y : Word16) :
    markClampY y (markClampX x (begun s)) = (begun s).setStatus
      ((if s.cfg.w ≤ x.toNat then clampXBit else 0#8) |||
        (if s.cfg.h ≤ y.toNat then clampYBit else 0#8)) := by
  have hw := w_of_valid h
  have hh := h_of_valid h
  have e1 : (x.toNat > s.cfg.w - 1) ↔ s.cfg.w ≤ x.toNat := by omega
  have e2 : (y.toNat > s.cfg.h - 1) ↔ s.cfg.h ≤ y.toNat := by omega
  unfold markClampY markClampX
  by_cases h1 : s.cfg.w ≤ x.toNat <;> by_cases h2 : s.cfg.h ≤ y.toNat <;>
    simp only [begun_cfg, setStatusBit, State.setStatus_cfg, e1, e2, h1, h2, if_true, if_false,
      begun_status, State.setStatus_status] <;>
    simp [State.setStatus, clampXBit, clampYBit] <;> rfl

theorem textFlags_eq (wa bs : Bool) (size : Byte) : textFlags wa bs size =
    BitVec.ofNat 8 (128 * wa.toNat + 64 * bs.toNat + size.toNat % 16) := by
  have h : ∀ (a b : Bool) (n : Byte), textFlags a b n =
      BitVec.ofNat 8 (128 * a.toNat + 64 * b.toNat + n.toNat % 16) := by decide +kernel
  exact h wa bs size

theorem floatFlags_eq (bs zf zm : Bool) (size : Byte) : floatFlags bs zf zm size =
    BitVec.ofNat 8 (128 * bs.toNat + 32 * zf.toNat + 16 * zm.toNat + size.toNat % 16) := by
  have h : ∀ (a b c : Bool) (n : Byte), floatFlags a b c n =
      BitVec.ofNat 8 (128 * a.toNat + 32 * b.toNat + 16 * c.toNat + n.toNat % 16) := by
    decide +kernel
  exact h bs zf zm size

end Sys2Proof.Machine
end

