-- ==== Sys2Proof/Laws/PerInstr.lean ====
section
/-!
SUPPORT. A law of every instruction as syntax: whether it has an encoding, and that the encoding begins with
the row's opcode and has the body length of 30_encoding R73 before its text or payload.
-/

namespace Sys2Proof

/-- Opcode and body length of a row (R73); `none` for the internal operations. -/
def Laws.EncodingShape.opcodeAndBody : Instr → Option (Byte × Nat)
  | .drawText _ _ _ _ _ _ _ _ => some (0x11#8, 10)
  | .drawFloat _ _ _ _ _ _ _ _ _ _ _ => some (0x14#8, 16)
  | .showIcon _ _ _ _ => some (0x23#8, 7)
  | .directIcon _ _ _ => some (0x24#8, 8)
  | .areaCopy _ _ _ _ _ _ _ => some (0x27#8, 14)
  | .memWrite _ _ _ => some (0x31#8, 4)
  | .memWriteFlash _ _ => some (0x31#8, 4)
  | .putByte _ _ => none
  | .beginFrame _ => none
  | .wb _ => none
  | .ww _ => none
  | .wl _ => none
  | .ws _ => none
  | .sendBody => none
  | .sendTail => none
  | .xmit => none
  | .rawOut _ _ _ => none

/-- The bytes that follow the body: text or payload (R61, R66). -/
def Laws.EncodingShape.trailing : Instr → List Byte
  | .drawText _ _ _ _ _ _ _ text => textOnWire text
  | .memWrite _ _ data => data
  | .memWriteFlash _ data => data
  | _ => []

/-- An encoding begins with the opcode, and is a body of the row's length followed by the text or payload. -/
def Laws.EncodingShape.Statement (i : Instr) : Prop :=
  ∀ bytes, encode i = some bytes →
    ∃ op n body, Laws.EncodingShape.opcodeAndBody i = some (op, n) ∧ bytes.head? = some op ∧
      body.length = n ∧ bytes = body ++ Laws.EncodingShape.trailing i

theorem Laws.EncodingShape.drawText (wa bs : Bool) (size : Byte) (fg bg x y : Word16)
    (text : TextSource) : Laws.EncodingShape.Statement (.drawText wa bs size fg bg x y text) := by
  intro bytes h
  simp only [encode, Option.some.injEq] at h
  subst h
  exact ⟨_, _, _ :: _ :: (be2 fg ++ be2 bg ++ be2 x ++ be2 y), rfl, rfl, rfl, rfl⟩

theorem Laws.EncodingShape.drawFloat (bs zf zm : Bool) (size : Byte) (fg bg : Word16)
    (inum fnum : Byte) (x y : Word16) (value : Int32) :
    Laws.EncodingShape.Statement (.drawFloat bs zf zm size fg bg inum fnum x y value) := by
  intro bytes h
  simp only [encode, Option.some.injEq] at h
  subst h
  exact ⟨_, _, _, rfl, rfl, rfl, (List.append_nil _).symm⟩

theorem Laws.EncodingShape.showIcon (lib pic : Byte) (x y : Word16) :
    Laws.EncodingShape.Statement (.showIcon lib pic x y) := by
  intro bytes h
  simp only [encode, Option.some.injEq] at h
  subst h
  exact ⟨_, _, _, rfl, rfl, rfl, (List.append_nil _).symm⟩

theorem Laws.EncodingShape.directIcon (x y addr : Word16) :
    Laws.EncodingShape.Statement (.directIcon x y addr) := by
  intro bytes h
  simp only [encode, Option.some.injEq] at h
  subst h
  exact ⟨_, _, _, rfl, rfl, rfl, (List.append_nil _).symm⟩

theorem Laws.EncodingShape.areaCopy (cache : Byte) (xs ys xe ye x y : Word16) :
    Laws.EncodingShape.Statement (.areaCopy cache xs ys xe ye x y) := by
  intro bytes h
  simp only [encode, Option.some.injEq] at h
  subst h
  exact ⟨_, _, _, rfl, rfl, rfl, (List.append_nil _).symm⟩

theorem Laws.EncodingShape.memWrite (type : Byte) (base : Word16) (data : List Byte) :
    Laws.EncodingShape.Statement (.memWrite type base data) := by
  intro bytes h
  simp only [encode] at h
  split at h
  · simp only [Option.some.injEq] at h
    subst h
    exact ⟨_, _, _ :: _ :: be2 base, rfl, rfl, rfl, rfl⟩
  · cases h

theorem Laws.EncodingShape.memWriteFlash (base : Word16) (data : List Byte) :
    Laws.EncodingShape.Statement (.memWriteFlash base data) := by
  intro bytes h
  simp only [encode, Option.some.injEq] at h
  subst h
  exact ⟨_, _, _ :: _ :: be2 base, rfl, rfl, rfl, rfl⟩

theorem Laws.EncodingShape.putByte (i : Nat) (v : Byte) :
    Laws.EncodingShape.Statement (.putByte i v) := fun _ h => by cases h

theorem Laws.EncodingShape.beginFrame (op : Byte) :
    Laws.EncodingShape.Statement (.beginFrame op) := fun _ h => by cases h

theorem Laws.EncodingShape.wb (v : Byte) : Laws.EncodingShape.Statement (.wb v) :=
  fun _ h => by cases h

theorem Laws.EncodingShape.ww (v : Word16) : Laws.EncodingShape.Statement (.ww v) :=
  fun _ h => by cases h

theorem Laws.EncodingShape.wl (v : Word32) : Laws.EncodingShape.Statement (.wl v) :=
  fun _ h => by cases h

theorem Laws.EncodingShape.ws (src : TextSource) : Laws.EncodingShape.Statement (.ws src) :=
  fun _ h => by cases h

theorem Laws.EncodingShape.sendBody : Laws.EncodingShape.Statement .sendBody :=
  fun _ h => by cases h

theorem Laws.EncodingShape.sendTail : Laws.EncodingShape.Statement .sendTail :=
  fun _ h => by cases h

theorem Laws.EncodingShape.xmit : Laws.EncodingShape.Statement .xmit := fun _ h => by cases h

theorem Laws.EncodingShape.rawOut (data : List Byte) (j0 n : Nat) :
    Laws.EncodingShape.Statement (.rawOut data j0 n) := fun _ h => by cases h

end Sys2Proof
end

