-- ==== Sys2Proof/Tests/Slice0.lean ====
section
/-!
SUPPORT. Tests on fixed values, each expected result taken from the named vector of 95_test_vectors or worked
out by hand from the named rule; and for each statement of Certificates/Slice0/Obligations.lean that has
hypotheses, values that meet them.
-/

namespace Sys2Proof.Tests

open Sys2Proof.Machine

/-! ### The configurations and states of the tests -/

/-- The default configuration of 95_test_vectors with a chosen capacity; the terminator is `F1 F2 F3 F4`. -/
def base (cap : Nat) : Cfg where
  cap := cap
  w := 272
  h := 480
  chunkMax := 2
  term := ⟨0xF1#8, 0xF2#8, 0xF3#8, 0xF4#8⟩
  tByte := 7
  lead := .none
  dataDelay := .perByte
  lMax := 5
  stringBound := .safe

def literal (cap : Nat) : Cfg := { base cap with stringBound := .literal }
def headed (cap : Nat) : Cfg := { base cap with lead := .header 0xAA#8 }
def delayed (d : DataDelay) : Cfg := { base 16 with dataDelay := d }

/-- A block with the cursor at `c`. -/
def at_ (k : Cfg) (c : Nat) : State := (State.resetWith k).setC c

/-- A block whose first cells are the given bytes, the cursor on the last of them. -/
def holding (k : Cfg) (bs : List Byte) : State :=
  ((State.resetWith k).setFb (Memory.writeAll [] 0 bs)).setC (bs.length - 1)

/-- What a view shows of the state after an instruction, if there is a next state. -/
def after {α : Type} (i : Instr) (s : State) (view : State → α) : Option α :=
  match exec i s with
  | .next t => some (view t)
  | .fault _ => none
  | .refused _ => none

/-- The same after a step. -/
def afterStep {α : Type} (s : State) (view : State → α) : Option α :=
  match step s with
  | .next t => some (view t)
  | .fault _ => none
  | .refused _ => none

/-- Byte projection, cursor and STATUS, the columns of the tables of L2.3. -/
def sentView (t : State) : List Byte × Nat × Byte := (byteProjection t.trace, t.c, t.status)

/-- `"ABCDEFGHIJKL"`. -/
def letters : List Byte :=
  [0x41#8, 0x42#8, 0x43#8, 0x44#8, 0x45#8, 0x46#8, 0x47#8, 0x48#8, 0x49#8, 0x4A#8, 0x4B#8, 0x4C#8]

/-! ### Well-formedness: an ill-formed term for each check -/

/-- The selector 0xA5 has its own constructor. -/
theorem test_illFormed_memWrite : wellFormed (.memWrite 0xA5#8 0 []) = false := by decide

/-- R91: BEGIN takes an opcode of R73. -/
theorem test_illFormed_beginFrame : wellFormed (.beginFrame 0x12#8) = false := by decide

/-- R114: `j0 + n <= len(data)`. -/
theorem test_illFormed_rawOut : wellFormed (.rawOut [0xDE#8, 0xAD#8] 1 2) = false := by decide

theorem test_wellFormed_rawOut : wellFormed (.rawOut [0xDE#8, 0xAD#8] 1 1) = true := by decide

/-! ### Decoding words written out from the tables of 30_encoding -/

/-- V-TEXT-1. -/
theorem test_decode_drawText :
    decode [0x11#8, 0xC5#8, 0xFF#8, 0xFF#8, 0x00#8, 0x00#8, 0x00#8, 0x0A#8, 0x00#8, 0x14#8, 0x48#8,
      0x69#8] = .ok (.drawText true true 5 0xFFFF 0 10 20 (.runtime [0x48#8, 0x69#8])) := by rfl

/-- V-FLOAT-1, value -1. -/
theorem test_decode_drawFloat :
    decode [0x14#8, 0xB3#8, 0xF8#8, 0x00#8, 0x00#8, 0x1F#8, 0x02#8, 0x01#8, 0xFF#8, 0xFF#8, 0x00#8,
      0x00#8, 0xFF#8, 0xFF#8, 0xFF#8, 0xFF#8] =
      .ok (.drawFloat true true true 3 0xF800 0x001F 2 1 0xFFFF 0 (-1)) := by rfl

/-- V-ICON-1. -/
theorem test_decode_showIcon :
    decode [0x23#8, 0x01#8, 0x0F#8, 0x01#8, 0xDF#8, 0x81#8, 0x05#8] =
      .ok (.showIcon 1 5 271 479) := by rfl

/-- V-DICON-1. -/
theorem test_decode_directIcon :
    decode [0x24#8, 0x01#8, 0x0F#8, 0x01#8, 0xDF#8, 0x80#8, 0x12#8, 0x34#8] =
      .ok (.directIcon 271 479 0x1234) := by rfl

/-- V-COPY-1. -/
theorem test_decode_areaCopy :
    decode [0x27#8, 0x80#8, 0x00#8, 0x00#8, 0x00#8, 0x00#8, 0x00#8, 0x64#8, 0x00#8, 0x32#8, 0x01#8,
      0x2C#8, 0x01#8, 0xF4#8] = .ok (.areaCopy 0 0 0 100 50 300 500) := by rfl

/-- V-MEMW-2. -/
theorem test_decode_memWrite :
    decode [0x31#8, 0x5A#8, 0x10#8, 0x00#8, 0xAB#8] = .ok (.memWrite 0x5A#8 0x1000 [0xAB#8]) := by
  rfl

/-- R66, R75: the flash selector. -/
theorem test_decode_memWriteFlash :
    decode [0x31#8, 0xA5#8, 0x00#8, 0x20#8, 0x01#8] = .ok (.memWriteFlash 0x20 [0x01#8]) := by rfl

/-- R73, R75, R76: what is no frame of the block is refused by name. -/
theorem test_decode_refuses :
    decode [0x12#8] = .error (.unknownOpcode 0x12#8) ∧
    decode [0x31#8, 0x00#8, 0x00#8, 0x00#8] = .error (.undefinedMemType 0x00#8) ∧
    decode [0x23#8, 0x00#8, 0x00#8, 0x00#8, 0x00#8, 0x01#8, 0x05#8] =
      .error (.topBitClear 0x23#8) ∧
    decode [0x24#8, 0x00#8] = .error (.badLength 0x24#8) := ⟨rfl, rfl, rfl, rfl⟩

/-- Every table word is decoded, and run by the first step after reset. -/
theorem test_table_words :
    [(8, 0x11), (8, 0x14), (8, 0x23), (8, 0x24), (8, 0x27), (16, 0x315A), (16, 0x31A5)].all
      (fun p => (decodeTableWord p.1 p.2).isSome &&
        (afterStep (State.reset.withFetchWord p.1 p.2) fun _ => ()).isSome) = true := by decide

/-! ### Primitive writers (L2.1) -/

/-- V-PB-1. -/
theorem test_putByte :
    after (.putByte 100 0x41#8) (at_ (base 101) 0) (fun t => t.fb.read? 100) = some (some 0x41#8) := by
  decide

/-- V-PB-2. -/
theorem test_putByte_overrun :
    after (.putByte 101 0x41#8) (at_ (base 101) 0) (fun t => (t.fault, t.fb)) =
      some (some (.overrun 101), []) := by decide

/-- V-BEGIN-1. -/
theorem test_begin :
    after (.beginFrame 0x23#8) (at_ (base 101) 37) (fun t => (t.fb.read? 0, t.c)) =
      some (some 0x23#8, 0) := by decide

/-- V-BEGIN-2. -/
theorem test_begin_headed :
    after (.beginFrame 0x23#8) (at_ (headed 101) 37)
      (fun t => (t.fb.read? 0, t.fb.read? 1, t.c)) = some (some 0xAA#8, some 0x23#8, 1) := by decide

/-- V-WB-1. -/
theorem test_wb :
    after (.wb 0x04#8) (at_ (base 101) 5) (fun t => (t.fb.read? 6, t.c)) =
      some (some 0x04#8, 6) := by decide

/-- V-WW-1. -/
theorem test_ww :
    after (.ww 0x1234) (at_ (base 101) 1) (fun t => (t.fb.read? 2, t.fb.read? 3, t.c)) =
      some (some 0x12#8, some 0x34#8, 3) := by decide

/-- V-WW-4. -/
theorem test_ww_overrun :
    after (.ww 0xABCD) (at_ (base 16) 14) (fun t => (t.fb, t.fault, t.c)) =
      some ([(15, 0xAB#8)], some (.overrun 16), 14) := by decide

/-- V-WL-1. -/
theorem test_wl :
    after (.wl (twos32 1234)) (at_ (base 101) 11) (fun t => (t.fb, t.c)) =
      some ([(12, 0x00#8), (13, 0x00#8), (14, 0x04#8), (15, 0xD2#8)], 15) := by decide

/-- V-WL-5. -/
theorem test_wl_negative :
    after (.wl (twos32 (-1234))) (at_ (base 101) 11) (fun t => t.fb.map Prod.snd) =
      some [0xFF#8, 0xFF#8, 0xFB#8, 0x2E#8] := by decide

/-- V-WS-4. -/
theorem test_ws_cut :
    after (.ws (.runtime letters)) (at_ (base 20) 9)
      (fun t => (t.fb.map Prod.snd, t.fb.map Prod.fst, t.c, t.status)) =
      some (letters.take 10, [10, 11, 12, 13, 14, 15, 16, 17, 18, 19], 19, 1) := by decide

/-- V-WS-12. -/
theorem test_ws_literal_overrun :
    after (.ws (.static (letters.take 11))) (at_ (literal 20) 9)
      (fun t => (t.fb.map Prod.snd, t.c, t.status, t.fault)) =
      some (letters.take 10, 9, 0, some (.overrun 20)) := by decide

/-! ### Frame transmitter (L2.2) -/

/-- V-TX-1. -/
theorem test_sendBody :
    after .sendBody (holding (base 101) [0x31#8, 0x5A#8, 0x10#8, 0x00#8])
      (fun t => (t.trace, t.c)) =
      some ([.emit 0x31#8, .wait 7, .emit 0x5A#8, .wait 7, .emit 0x10#8, .wait 7, .emit 0x00#8,
        .wait 7], 4) := by decide

/-- V-TX-2. -/
theorem test_sendTail :
    after .sendTail (at_ (base 101) 5) (fun t => (t.trace, t.c)) =
      some ([.emit 0xF1#8, .wait 7, .emit 0xF2#8, .wait 7, .emit 0xF3#8, .wait 7, .emit 0xF4#8,
        .wait 7], 5) := by decide

/-- V-TX-3. -/
theorem test_xmit :
    after .xmit (holding (base 101) [0x11#8]) (fun t => (byteProjection t.trace, t.trace.length, t.c)) =
      some ([0x11#8, 0xF1#8, 0xF2#8, 0xF3#8, 0xF4#8], 10, 1) := by decide

/-- V-TX-5. -/
theorem test_rawOut_perByte :
    after (.rawOut [0xDE#8, 0xAD#8] 0 2) (at_ (delayed .perByte) 0) (fun t => t.trace) =
      some [.emit 0xDE#8, .wait 7, .emit 0xAD#8, .wait 7] := by decide

/-- V-TX-6. -/
theorem test_rawOut_oncePerChunk :
    after (.rawOut [0xDE#8, 0xAD#8] 0 2) (at_ (delayed .oncePerChunk) 0) (fun t => t.trace) =
      some [.emit 0xDE#8, .emit 0xAD#8, .wait 7] := by decide

/-! ### Commands (L2.3 to L2.5) -/

/-- V-TEXT-1. -/
theorem test_drawText :
    after (.drawText true true 5 0xFFFF 0 10 20 (.runtime [0x48#8, 0x69#8])) (at_ (base 101) 0)
      sentView =
      some ([0x11#8, 0xC5#8, 0xFF#8, 0xFF#8, 0x00#8, 0x00#8, 0x00#8, 0x0A#8, 0x00#8, 0x14#8,
        0x48#8, 0x69#8, 0xF1#8, 0xF2#8, 0xF3#8, 0xF4#8], 12, 0) := by decide

/-- V-LEAD-4. -/
theorem test_drawText_headed_cut :
    after (.drawText false false 1 0x001F 0xFFFF 0 0 (.runtime letters)) (at_ (headed 20) 0)
      sentView =
      some ([0xAA#8, 0x11#8, 0x01#8, 0x00#8, 0x1F#8, 0xFF#8, 0xFF#8, 0x00#8, 0x00#8, 0x00#8,
        0x00#8, 0x41#8, 0x42#8, 0x43#8, 0x44#8, 0x45#8, 0x46#8, 0x47#8, 0x48#8, 0x49#8, 0xF1#8,
        0xF2#8, 0xF3#8, 0xF4#8], 20, 1) := by decide

/-- L1.1, with `FG = 0x1111` and `BG = 0x2222`. -/
theorem test_drawFloat :
    after (.drawFloat false false false 0 0x1111 0x2222 4 0 10 20 1234) (at_ (base 16) 0) sentView =
      some ([0x14#8, 0x00#8, 0x11#8, 0x11#8, 0x22#8, 0x22#8, 0x04#8, 0x00#8, 0x00#8, 0x0A#8,
        0x00#8, 0x14#8, 0x00#8, 0x00#8, 0x04#8, 0xD2#8, 0xF1#8, 0xF2#8, 0xF3#8, 0xF4#8], 16, 0) := by
  decide

/-- V-FLOAT-1. -/
theorem test_drawFloat_flags :
    after (.drawFloat true true true 3 0xF800 0x001F 2 1 0xFFFF 0 (-1)) (at_ (base 16) 0)
      (fun t => (byteProjection t.trace).take 16) =
      some [0x14#8, 0xB3#8, 0xF8#8, 0x00#8, 0x00#8, 0x1F#8, 0x02#8, 0x01#8, 0xFF#8, 0xFF#8,
        0x00#8, 0x00#8, 0xFF#8, 0xFF#8, 0xFF#8, 0xFF#8] := by decide

/-- V-ICON-4. -/
theorem test_showIcon :
    after (.showIcon 1 5 300 10) (at_ (base 101) 0) sentView =
      some ([0x23#8, 0x01#8, 0x0F#8, 0x00#8, 0x0A#8, 0x81#8, 0x05#8, 0xF1#8, 0xF2#8, 0xF3#8,
        0xF4#8], 7, 2) := by decide

/-- V-ICON-1: the last column and row are not clamped. -/
theorem test_showIcon_edge :
    after (.showIcon 1 5 271 479) (at_ (base 101) 0) (fun t => t.status) = some 0 := by decide

/-- V-DICON-1. -/
theorem test_directIcon :
    after (.directIcon 500 600 0x1234) (at_ (base 101) 0) sentView =
      some ([0x24#8, 0x01#8, 0x0F#8, 0x01#8, 0xDF#8, 0x80#8, 0x12#8, 0x34#8, 0xF1#8, 0xF2#8,
        0xF3#8, 0xF4#8], 8, 6) := by decide

/-- V-COPY-2. -/
theorem test_areaCopy :
    after (.areaCopy 0x7F#8 100 50 0 0 0xFFFF 0xFFFF) (at_ (base 101) 0) sentView =
      some ([0x27#8, 0xFF#8, 0x00#8, 0x64#8, 0x00#8, 0x32#8, 0x00#8, 0x00#8, 0x00#8, 0x00#8,
        0xFF#8, 0xFF#8, 0xFF#8, 0xFF#8, 0xF1#8, 0xF2#8, 0xF3#8, 0xF4#8], 14, 0) := by decide

/-- R150 to R155 by hand, with `C = 2` and an address that wraps (V-MEMW-5 in small): three bytes at 0xFFFE go
out as two sub-frames, at 0xFFFE and 0x0000. -/
theorem test_memWrite :
    after (.memWrite 0x5A#8 0xFFFE [0x01#8, 0x02#8, 0x03#8]) (at_ (base 16) 0)
      (fun t => (byteProjection t.trace, t.c, t.sl.rem, t.sl.idx, t.sl.n)) =
      some ([0x31#8, 0x5A#8, 0xFF#8, 0xFE#8, 0x01#8, 0x02#8, 0xF1#8, 0xF2#8, 0xF3#8, 0xF4#8,
        0x31#8, 0x5A#8, 0x00#8, 0x00#8, 0x03#8, 0xF1#8, 0xF2#8, 0xF3#8, 0xF4#8], 4, 0, 2, 1) := by
  decide

/-- V-MEMW-11, with `LMAX = 5`: the type selector is checked first. -/
theorem test_memWrite_refused :
    after (.memWrite 0x00#8 0 letters) (at_ (base 16) 0)
      (fun t => (t.refused, t.phase, t.trace)) = some (some .rfMemType, .busy, []) := by decide

/-- V-MEMW-9. -/
theorem test_memWriteFlash :
    after (.memWriteFlash 0 [0x01#8, 0x02#8, 0x03#8]) (at_ (base 16) 0)
      (fun t => (t.refused, t.phase, t.status, t.trace)) =
      some (some .rfMemType, .busy, 0, []) := by decide

/-! ### Reset, the port and the step -/

/-- V-RST-1 and V-RST-2: the configurations are refused, and the request is held. -/
theorem test_reset_refused :
    (State.resetWith (base 15)).refused = some .rfConfig ∧
    (State.resetWith (headed 16)).refused = some .rfConfig ∧
    afterStep (issue (.showIcon 0 0 0 0) (State.resetWith (base 15)))
      (fun t => (t.port.length, t.trace, t.phase)) = some (1, [], .idle) := by decide

/-- A step takes one command off the port: of two, the second is still there. -/
theorem test_step_takes_one :
    afterStep (issue (.areaCopy 0 0 0 0 0 0 0) (issue (.showIcon 1 5 300 10) (at_ (base 101) 0)))
      (fun t => (t.port, t.status)) = some ([.areaCopy 0 0 0 0 0 0 0], 2) := by decide

/-- V-HOLD-1: after a refusal the next command is held. -/
theorem test_step_holds :
    afterStep { issue (.showIcon 0 0 0 0) (at_ (base 101) 0) with
        phase := .busy, refused := some .rfMemType }
      (fun t => (t.port, t.trace)) = some ([.showIcon 0 0 0 0], []) := by decide

/-- V-MEMW-9 as the host sees it (R180): no command accepted, STATUS 0, the refusal. -/
theorem test_hostView_after_stop :
    after (.memWriteFlash 0 [0x01#8, 0x02#8, 0x03#8]) ((at_ (base 16) 0).setStatus 6) hostView =
      some ⟨false, 0, none, some .rfMemType⟩ := by decide

/-- P4, command 1 then 2: the host reads the STATUS that the overrun left. -/
theorem test_hostView_after_overrun :
    after (.drawText false false 0 0 0 1 2 (.runtime (letters.take 7))) (at_ (literal 16) 0) hostView =
      some ⟨false, 0, some (.overrun 16), none⟩ := by decide

/-- The examples of R79. -/
theorem test_showCommand :
    showCommand (.showIcon 1 5 300 10) = "ICON 1, 5, 300, 10" ∧
    showCommand (.memWrite 0x5A#8 0 [0x01#8, 0x02#8]) = "MEMW 90, 0, [1, 2]" := by
  decide +kernel

/-! ### Witnesses: values that meet the hypotheses of the statements -/

/-- A valid configuration, reset, is ready. -/
theorem ready_of_reset {k : Cfg} (h : cfgValid k = true) (hl : leadHeld (State.resetWith k) = true) :
    Ready (State.resetWith k) :=
  ⟨rfl, rfl, by simp [State.resetWith, h], h, hl⟩

/-- `Ready` in the smallest buffer, under `Safe`. -/
theorem witness_ready : Ready (State.resetWith (base 16)) ∧ (base 16).stringBound = .safe :=
  ⟨ready_of_reset (by decide) (by decide), rfl⟩

/-- `Ready` with a lead byte, in the smallest buffer. -/
theorem witness_ready_headed : Ready (State.resetWith (headed 17)) :=
  ready_of_reset (by decide) (by decide)

/-- DrawTextLiteralSendsOrStops: `CAP = 16` leaves 6 cells; a text of 6 bytes fits, one of 7 does not. -/
theorem witness_ready_literal :
    Ready (State.resetWith (literal 16)) ∧ (literal 16).stringBound = .literal ∧
    (textOnWire (.runtime (letters.take 6))).length ≤ 16 - (10 + leadLen (literal 16).lead) ∧
    16 - (10 + leadLen (literal 16).lead) < (textOnWire (.runtime (letters.take 7))).length :=
  ⟨ready_of_reset (by decide) (by decide), by decide⟩

/-- ResetPutsEveryFieldToItsValue: the three clauses, at the least CAP and one below. -/
theorem witness_ResetPutsEveryFieldToItsValue :
    ((headed 17).lead = .header 0xAA#8 ∧ 0 < (headed 17).cap) ∧
    (((base 16).lead = .none ∧ 16 ≤ (base 16).cap ∨ (base 16).lead ≠ .none ∧ 17 ≤ (base 16).cap) ∧
      1 ≤ (base 16).w ∧ (base 16).w ≤ 65536 ∧ 1 ≤ (base 16).h ∧ (base 16).h ≤ 65536 ∧
      1 ≤ (base 16).chunkMax ∧ 1 ≤ (base 16).lMax) ∧
    ¬ ((headed 16).lead = .none ∧ 16 ≤ (headed 16).cap ∨
      (headed 16).lead ≠ .none ∧ 17 ≤ (headed 16).cap) := by decide

/-- StepRunsTheIssuedCommand, AcceptedCommandCompletesOrIsRefused: a ready block with a command issued. -/
theorem witness_issued :
    (issue (.showIcon 1 5 300 10) (State.resetWith (base 16))).port = .showIcon 1 5 300 10 :: [] ∧
    Ready (issue (.showIcon 1 5 300 10) (State.resetWith (base 16))) ∧
    Ready (issue (.memWrite 0xA5#8 0 []) (State.resetWith (base 16))) :=
  ⟨rfl, ⟨rfl, rfl, by decide, by decide, by decide⟩, ⟨rfl, rfl, by decide, by decide, by decide⟩⟩

/-- StepHoldsRequests, MarksAreSticky: each way a block does not accept. -/
theorem witness_notAccepting :
    ((at_ (base 16) 0).setPhase .busy).phase = .busy ∧
    ((at_ (base 16) 0).setFault (some (.overrun 16))).fault ≠ none ∧
    (State.resetWith (base 15)).refused ≠ none ∧ (State.resetWith (base 16)).port = [] := by decide

/-- StepRunsTheDecodedWord. -/
theorem witness_StepRunsTheDecodedWord :
    decodeTableWord 16 0x315A = some (.memWrite 0x5A#8 0 []) := by decide

/-- An unmarked state, and the two sides of each bound of PUTBYTE, BEGIN, WB, WW and WL. -/
theorem witness_writers :
    (at_ (base 16) 14).fault = none ∧ (at_ (base 16) 14).refused = none ∧
    15 < (base 16).cap ∧ (base 16).cap ≤ 16 ∧
    (base 16).lead = .none ∧ (headed 17).lead = .header 0xAA#8 ∧ 1 < (headed 17).cap ∧
    14 + 1 < (base 16).cap ∧ (base 16).cap ≤ 15 + 1 ∧
    13 + 2 < (base 16).cap ∧ (base 16).cap ≤ 14 + 2 ∧
    11 + 4 < (base 16).cap ∧ (base 16).cap ≤ 12 + 4 := by decide

/-- TextEndsAtTheFirstNul: a text cut at its second byte, and one of length 0 (V-WS-9, V-WS-10). -/
theorem witness_TextEndsAtTheFirstNul :
    textLen [0x41#8, 0x00#8, 0x42#8] = 1 ∧ textLen [0x00#8, 0x41#8] = 0 ∧
    textLen [0x41#8, 0x42#8] = 2 := by decide

/-- StringWriterStaysInTheBuffer: the text cut and not cut, at the last cursor and past the buffer. -/
theorem witness_StringWriterStaysInTheBuffer :
    (base 20).stringBound = .safe ∧
    (base 20).cap - 1 - 9 < (textOnWire (.runtime letters)).length ∧
    ¬ (base 20).cap - 1 - 9 < (textOnWire (.runtime (letters.take 10))).length ∧
    (at_ (base 20) 19).c < (base 20).cap ∧ (base 20).cap ≤ (at_ (base 20) 20).c := by decide

/-- StringWriterFollowsItsRule: V-WS-11 and V-WS-12, and V-WS-6 where nothing is written. -/
theorem witness_StringWriterFollowsItsRule :
    10 = min ((literal 20).cap - 9) (textOnWire (.runtime (letters.take 10))).length ∧
    9 + 10 < (literal 20).cap ∧
    11 = min ((literal 20).cap - 9) (textOnWire (.runtime (letters.take 11))).length ∧
    (literal 20).cap ≤ 9 + 11 ∧
    0 = min ((base 20).cap - 1 - 19) (textOnWire (.runtime [0x41#8])).length := by decide

/-- SendBodyStreamsTheBuffer, XmitSendsBodyAndTerminator: the last cursor; ReadsOutsideStopByName: one past. -/
theorem witness_transmitter :
    (at_ (base 16) 15).c < (base 16).cap ∧ (at_ (base 16) 15).fault = none ∧
    (at_ (base 16) 15).refused = none ∧ (base 16).cap ≤ (at_ (base 16) 16).c ∧
    (at_ (base 16) 16).fault = none ∧ (at_ (base 16) 16).refused = none := by decide

/-- RawOutFollowsDataDelay: the end of the payload, under each delay; ReadsOutsideStopByName: one past. -/
theorem witness_rawOut :
    1 + 1 ≤ [0xDE#8, 0xAD#8].length ∧ [0xDE#8, 0xAD#8].length < 1 + 2 ∧
    (at_ (delayed .perByte) 0).cfg.dataDelay = .perByte ∧
    (at_ (delayed .oncePerChunk) 0).cfg.dataDelay = .oncePerChunk ∧
    (at_ (delayed .noWait) 0).cfg.dataDelay = .noWait ∧
    (at_ (delayed .noWait) 0).fault = none ∧ (at_ (delayed .noWait) 0).refused = none := by decide

/-- IconFieldsSaturate: `x = W - 1`, `y = H - 1`, in a ready block. -/
theorem witness_IconFieldsSaturate :
    (base 16).w - 1 ≤ (271 : Word16).toNat ∧ (base 16).h - 1 ≤ (479 : Word16).toNat ∧
    (∃ lib pic, Instr.showIcon 1 5 271 479 = .showIcon lib pic 271 479) ∧
    (∃ addr, Instr.directIcon 271 479 9 = .directIcon 271 479 addr) :=
  ⟨by decide, by decide, ⟨1, 5, rfl⟩, ⟨9, rfl⟩⟩

/-- The memory write statements: `L = LMAX`, one more, an empty payload, and a type that is refused. -/
theorem witness_memWrite :
    (letters.take 5).length ≤ (base 16).lMax ∧ letters.take 5 ≠ [] ∧
    (base 16).lMax < (letters.take 6).length ∧ (0xA5#8 : Byte) ≠ 0x5A#8 ∧
    (State.resetWith (base 16)).phase = .idle ∧ (State.resetWith (base 16)).fault = none ∧
    (State.resetWith (base 16)).refused = none := by decide

/-- NoCommandOverruns: any command of a valid configuration under `Safe`. -/
theorem witness_NoCommandOverruns :
    isCommand (.memWriteFlash 0 []) = true ∧ isCommand (.drawText true true 0 0 0 0 0 .null) = true ∧
    cfgValid (base 16) = true ∧ (base 16).stringBound = .safe ∧
    (State.resetWith (base 16)).fault = none := by decide

/-- EveryInstructionKeepsItsFrame, WritesStayInTheBuffer: an instruction that answers a next state. -/
theorem witness_next :
    ∃ t, exec (.wb 0x04#8) (at_ (base 16) 5) = .next t ∧ isCommand (.wb 0x04#8) = false :=
  ⟨_, rfl, rfl⟩

/-- StatusBitsHaveTheirSetters: each bit is set by an instruction. -/
theorem witness_StatusBitsHaveTheirSetters :
    after (.ws (.runtime letters)) (at_ (base 16) 9) (fun t => t.status.getLsbD 0) = some true ∧
    after (.showIcon 1 5 300 10) (at_ (base 16) 0) (fun t => t.status.getLsbD 1) = some true ∧
    after (.directIcon 271 480 0) (at_ (base 16) 0) (fun t => t.status.getLsbD 2) = some true := by
  decide

/-- NoStateLeaksIntoTheTrace: two ready blocks with one CFG that differ in FB, cursor and STATUS. -/
theorem witness_NoStateLeaksIntoTheTrace :
    Ready (State.resetWith (base 16)) ∧ Ready ((holding (base 16) letters).setStatus 6) ∧
    (State.resetWith (base 16)).cfg = ((holding (base 16) letters).setStatus 6).cfg ∧
    isCommand (.areaCopy 0 0 0 0 0 0 0) = true :=
  ⟨witness_ready.1, ⟨rfl, rfl, by decide, by decide, by decide⟩, rfl, rfl⟩

/-- BytesDoNotDependOnTheWaits: two blocks that differ in T_BYTE and DATA_DELAY. -/
theorem witness_BytesDoNotDependOnTheWaits :
    Ready (State.resetWith (base 16)) ∧
    Ready (State.resetWith { base 16 with tByte := 9, dataDelay := .noWait }) ∧
    (State.resetWith { base 16 with tByte := 9, dataDelay := .noWait }).cfg =
      { (State.resetWith (base 16)).cfg with tByte := 9, dataDelay := .noWait } :=
  ⟨witness_ready.1, ready_of_reset (by decide) (by decide), rfl⟩

/-- StepKeepsTheInvariant: a block in the invariant with a command issued. -/
theorem witness_inv : Inv (issue (.showIcon 1 5 300 10) (State.resetWith (base 16))) where
  canonical := by decide
  inBuffer := by decide
  cursor := by decide
  reserved := by decide
  lead := by decide
  oneMark := by decide
  config := by decide
  busy := by decide
  overrun := by simp [issue, State.setPort, State.resetWith]

/-- DecodeOfEncode, EncodeOfDecode: a frame and its instruction. -/
theorem witness_encoding :
    encode (.showIcon 1 5 271 479) =
      some [0x23#8, 0x01#8, 0x0F#8, 0x01#8, 0xDF#8, 0x81#8, 0x05#8] ∧
    decode [0x23#8, 0x01#8, 0x0F#8, 0x01#8, 0xDF#8, 0x81#8, 0x05#8] =
      .ok (.showIcon 1 5 271 479) := ⟨by decide, rfl⟩

/-- DrawingCommandsSendTheirEncoding, and the frame statements of the five drawing commands. -/
theorem witness_DrawingCommandsSendTheirEncoding :
    isDrawing (.areaCopy 0 0 0 0 0 0 0) = true ∧ isDrawing (.drawText true true 0 0 0 0 0 .null) = true ∧
    Ready (State.resetWith (base 16)) ∧ (State.resetWith (base 16)).cfg.stringBound = .safe :=
  ⟨rfl, rfl, witness_ready.1, rfl⟩

end Sys2Proof.Tests
end

section
/-! The field bytes and `twos_32` read as numbers (R15, R42, R68). -/

namespace Sys2Proof
open Sys2Proof.Machine

/-- The byte of a word from bit `i` up is the word shifted right by `i` places, as arithmetic. -/
theorem extractByte_eq_ofNat_div {w : Nat} (v : BitVec w) (i : Nat) :
    v.extractLsb' i 8 = BitVec.ofNat 8 (v.toNat / 2 ^ i) := by
  rw [BitVec.extractLsb', Nat.shiftRight_eq_div_pow]

/-- A byte keeps only the last base-256 digit of a number. -/
theorem byteOfNat_mod (n : Nat) : BitVec.ofNat 8 (n % 256) = BitVec.ofNat 8 n :=
  BitVec.eq_of_toNat_eq (by simp)

/-- `BE_2` is the two base-256 digits, the most significant first (R15, R42). -/
theorem be2_eq_digits (v : Word16) :
    be2 v = [BitVec.ofNat 8 (v.toNat / 256), BitVec.ofNat 8 (v.toNat % 256)] := by
  simp [be2, extractByte_eq_ofNat_div, byteOfNat_mod]

/-- `BE_4` is the four base-256 digits, the most significant first (R15, R42). -/
theorem be4_eq_digits (v : Word32) :
    be4 v = [BitVec.ofNat 8 (v.toNat / 16777216), BitVec.ofNat 8 (v.toNat / 65536 % 256),
      BitVec.ofNat 8 (v.toNat / 256 % 256), BitVec.ofNat 8 (v.toNat % 256)] := by
  simp [be4, extractByte_eq_ofNat_div, byteOfNat_mod]

/-- `twos_32` is the value modulo `2 ^ 32` (R68). -/
theorem toNat_twos32 (v : Int32) : ((twos32 v).toNat : Int) = v.toInt % 4294967296 := by
  have hnonneg : 0 ≤ v.toInt % 4294967296 := Int.emod_nonneg _ (by decide)
  calc ((twos32 v).toNat : Int)
      = ((v.toInt % 4294967296).toNat : Int) := by rw [twos32, BitVec.toNat_ofInt]; rfl
    _ = v.toInt % 4294967296 := Int.toNat_of_nonneg hnonneg

/-- Settles O7: each byte a field is cut into is a base-256 digit, and `twos_32` is reduction
modulo `2 ^ 32`. -/
theorem multiByteFieldsAreBigEndian : Obligations.MultiByteFieldsAreBigEndian :=
  ⟨be2_eq_digits, be4_eq_digits, toNat_twos32⟩

end Sys2Proof
end

section
/-!
What an instruction may touch, said once of `exec`: every instruction is a piece of pseudocode under one of the
two envelopes, and what that piece keeps (10_state R24 to R29).
-/

namespace Sys2Proof.Machine

/-- The STATUS bits and the instructions that set them (R25): TRUNC by WS, alone or inside DRAW_TEXT; CLAMPX
and CLAMPY by the two commands that clamp. -/
def SetsBit (i : Instr) (b : Nat) : Prop :=
  (b = 0 ∧ ((∃ src, i = .ws src) ∨
    ∃ wa bs size fg bg x y text, i = .drawText wa bs size fg bg x y text)) ∨
  ((b = 1 ∨ b = 2) ∧ ((∃ lib pic x y, i = .showIcon lib pic x y) ∨
    ∃ x y addr, i = .directIcon x y addr))

/-- From `s` to `t` nothing is written that `i` may not write: `Keeps`, SL by MEM_WRITE alone (R26), the
refusal mark by a command alone (R172), and a STATUS bit by its setters alone (R25). -/
structure Touches (i : Instr) (s t : State) : Prop where
  keeps : Keeps s t
  sl : (∀ type base data, i ≠ .memWrite type base data) → t.sl = s.sl
  refused : isCommand i = false → t.refused = s.refused
  status : ∀ b, t.status.getLsbD b = true → s.status.getLsbD b = true ∨ SetsBit i b

theorem Touches.trans {i : Instr} {s t u : State} (h : Touches i s t) (h' : Touches i t u) :
    Touches i s u where
  keeps := h.keeps.trans h'.keeps
  sl hi := (h'.sl hi).trans (h.sl hi)
  refused hi := (h'.refused hi).trans (h.refused hi)
  status b hb := (h'.status b hb).elim (h.status b) .inr

theorem Calm.touches {s t : State} (i : Instr) (h : Calm s t) : Touches i s t where
  keeps := h.keeps
  sl _ := h.sl
  refused _ := h.refused
  status _ hb := .inl (h.status ▸ hb)

theorem CalmButTrunc.touches {i : Instr} {s t : State} (hi : SetsBit i 0) (h : CalmButTrunc s t) :
    Touches i s t where
  keeps := h.keeps
  sl _ := h.sl
  refused _ := h.refused
  status b hb := (h.status b hb).imp_right (by rintro rfl; exact hi)

/-! ### The pseudocode of the commands -/

/-- A frame whose statements are BEGIN, writers and XMIT leaves SL, the refusal mark and STATUS alone. -/
theorem runAll_frame_calm (op : Byte) (bss : List (List Byte)) (s : State) :
    (runAll (beginFrame op :: (bss.map appendBytes ++ [xmit])) s).Sat (Calm s) := by
  refine runAll_sat Calm.refl (fun _ _ _ => Calm.trans) (fun f hf t => ?_) s
  simp only [List.mem_cons, List.mem_append, List.mem_map, List.not_mem_nil, or_false] at hf
  rcases hf with rfl | ⟨bs, -, rfl⟩ | rfl
  · exact beginFrame_calm op t
  · exact appendBytes_calm bs t
  · exact xmit_calm t

/-- The same with WS before XMIT: TRUNC is the one STATUS bit that may be set. -/
theorem runAll_textFrame_butTrunc (op : Byte) (bss : List (List Byte)) (text : TextSource) (s : State) :
    (runAll (beginFrame op :: (bss.map appendBytes ++ [ws text, xmit])) s).Sat (CalmButTrunc s) := by
  refine runAll_sat (fun s => (Calm.refl s).butTrunc) (fun _ _ _ => CalmButTrunc.trans)
    (fun f hf t => ?_) s
  simp only [List.mem_cons, List.mem_append, List.mem_map, List.not_mem_nil, or_false] at hf
  rcases hf with rfl | ⟨bs, -, rfl⟩ | rfl | rfl
  · exact (beginFrame_calm op t).mono fun _ => Calm.butTrunc
  · exact (appendBytes_calm bs t).mono fun _ => Calm.butTrunc
  · exact ws_butTrunc text t
  · exact (xmit_calm t).mono fun _ => Calm.butTrunc

/-- Setting bit `n` of STATUS is the work of a setter of that bit. -/
theorem setStatusBit_touches {i : Instr} {n : Nat} (hi : SetsBit i n) {mask : Byte}
    (hmask : mask = BitVec.twoPow 8 n) (s : State) : Touches i s (setStatusBit mask s) where
  keeps := ⟨rfl, rfl, rfl, ⟨[], by simp [setStatusBit]⟩, fun _ _ => rfl, id, id⟩
  sl _ := rfl
  refused _ := rfl
  status b hb := by
    simp only [setStatusBit, State.setStatus_status, BitVec.getLsbD_or, Bool.or_eq_true, hmask,
      BitVec.getLsbD_twoPow, Bool.and_eq_true, decide_eq_true_eq] at hb
    rcases hb with h | ⟨-, rfl⟩
    · exact .inl h
    · exact .inr hi

/-- The clamps of SHOW_ICON and DIRECT_ICON set CLAMPX and CLAMPY and nothing else (R131). -/
theorem markClamps_touches {i : Instr} (hx : SetsBit i 1) (hy : SetsBit i 2) (x y : Word16) (s : State) :
    Touches i s (markClampY y (markClampX x s)) := by
  have markX : Touches i s (markClampX x s) := by
    unfold markClampX
    split
    · exact setStatusBit_touches hx rfl s
    · exact (Calm.refl s).touches i
  refine markX.trans ?_
  unfold markClampY
  split
  · exact setStatusBit_touches hy rfl _
  · exact (Calm.refl _).touches i

/-- The statements of SHOW_ICON and DIRECT_ICON: the clamps, then a frame. -/
theorem withClamped_touches {i : Instr} (hx : SetsBit i 1) (hy : SetsBit i 2) (x y : Word16) (op : Byte)
    (bss : Word16 → Word16 → List (List Byte)) (s : State) :
    (withClamped x y (fun x' y' => beginFrame op :: ((bss x' y').map appendBytes ++ [xmit])) s).Sat
      (Touches i s) :=
  (runAll_frame_calm op _ _).mono fun _ h => (markClamps_touches hx hy x y s).trans (h.touches i)

/-! ### The pseudocode of MEM_WRITE -/

/-- Writing the slicer registers is MEM_WRITE's alone. -/
theorem setSl_touches (type : Byte) (base : Word16) (data : List Byte) (s : State) (r : Slicer) :
    Touches (.memWrite type base data) s (s.setSl r) where
  keeps := ⟨rfl, rfl, rfl, ⟨[], by simp⟩, fun _ _ => rfl, id, id⟩
  sl hi := absurd rfl (hi type base data)
  refused _ := rfl
  status _ := .inl

/-- One iteration of the chunk loop writes SL but not STATUS or the refusal mark. -/
theorem sendChunk_touches (type : Byte) (base : Word16) (data : List Byte) (s : State) :
    (sendChunk data s).Sat (Touches (.memWrite type base data) s) := by
  have calm {x : Flow} {t : State} (h : x.Sat (Calm t)) : x.Sat (Touches (.memWrite type base data) t) :=
    h.mono fun _ => Calm.touches _
  refine runAll_sat (fun s => (Calm.refl s).touches _) (fun _ _ _ => Touches.trans) ?_ s
  simp only [List.forall_mem_cons]
  exact ⟨fun t => setSl_touches type base data t _,
    fun t => calm (beginFrame_calm _ t),
    fun t => calm (wb_calm _ t),
    fun t => calm (ww_calm _ t),
    fun t => calm (sendBody_calm t),
    fun t => calm (rawOut_calm _ _ _ t),
    fun t => calm (sendTail_calm t),
    fun t => setSl_touches type base data t _,
    fun _ h => nomatch h⟩

theorem chunkLoop_touches (type : Byte) (base : Word16) (data : List Byte) (fuel : Nat) (s : State) :
    (chunkLoop data fuel s).Sat (Touches (.memWrite type base data) s) := by
  induction fuel generalizing s with
  | zero =>
    unfold chunkLoop
    split
    · exact (Calm.refl s).touches _
    · exact trivial
  | succ fuel ih =>
    unfold chunkLoop
    split
    · exact (Calm.refl s).touches _
    · exact Flow.sat_bind (R := Touches _) (fun _ _ _ => Touches.trans)
        (sendChunk_touches type base data s) ih

/-- A type selector other than 0x5A is refused before anything else is looked at (R151, R174). -/
theorem memWriteRule_wrongType {type : Byte} (h : type ≠ 0x5A#8) (base : Word16) (data : List Byte)
    (s : State) : memWriteRule type base data s = refuse .rfMemType s := if_pos h

/-- A payload longer than LMAX is refused (R151). -/
theorem memWriteRule_tooLong {data : List Byte} {s : State} (h : s.cfg.lMax < data.length)
    (base : Word16) : memWriteRule 0x5A#8 base data s = refuse .rfLength s := by
  simp [memWriteRule, h]

/-- An admitted payload enters the chunk loop (R150). -/
theorem memWriteRule_admitted {data : List Byte} {s : State} (h : data.length ≤ s.cfg.lMax)
    (base : Word16) : memWriteRule 0x5A#8 base data s =
      chunkLoop data data.length (slicerEntry 0x5A#8 base data.length s) := by
  simp [memWriteRule, Nat.not_lt.2 h]

/-- A refusal touches nothing but the refusal mark. -/
theorem refuse_touches {i : Instr} (hi : isCommand i = true) (r : RefusedMark) (s : State) :
    (refuse r s).Sat (Touches i s) where
  keeps := ⟨rfl, rfl, rfl, ⟨[], by simp⟩, fun _ _ => rfl, id, id⟩
  sl _ := rfl
  refused h := by simp [hi] at h
  status _ := .inl

theorem memWriteRule_touches (type : Byte) (base : Word16) (data : List Byte) (s : State) :
    (memWriteRule type base data s).Sat (Touches (.memWrite type base data) s) := by
  unfold memWriteRule
  split
  · exact refuse_touches rfl _ s
  · split
    · exact refuse_touches rfl _ s
    · exact (chunkLoop_touches type base data _ _).mono fun _ => (setSl_touches type base data s _).trans

/-! ### Every instruction -/

/-- An instruction is an internal operation under R176's condition or a command under the envelope R130, and
its pseudocode touches only what the instruction may write. -/
theorem exec_shape (i : Instr) :
    (isCommand i = false ∧ ∃ op, (∀ s, exec i s = runInternal op s) ∧ ∀ s, (op s).Sat (Touches i s)) ∨
    (isCommand i = true ∧ ∃ body, (∀ s, exec i s = runCommand body s) ∧
      ∀ s, (body s).Sat (Touches i s)) := by
  have calm {x : Flow} {t : State} (h : x.Sat (Calm t)) : x.Sat (Touches i t) :=
    h.mono fun _ => Calm.touches i
  cases i with
  | drawText wa bs size fg bg x y text =>
    have hi : SetsBit (.drawText wa bs size fg bg x y text) 0 :=
      .inl ⟨rfl, .inr ⟨wa, bs, size, fg, bg, x, y, text, rfl⟩⟩
    exact .inr ⟨rfl, _, fun _ => rfl, fun s => (runAll_textFrame_butTrunc _
      [be1 (textFlags wa bs size), be2 fg, be2 bg, be2 x, be2 y] text s).mono fun _ h => h.touches hi⟩
  | drawFloat bs zf zm size fg bg inum fnum x y value =>
    exact .inr ⟨rfl, _, fun _ => rfl, fun s => calm (runAll_frame_calm _
      [be1 (floatFlags bs zf zm size), be2 fg, be2 bg, be1 inum, be1 fnum, be2 x, be2 y,
        be4 (twos32 value)] s)⟩
  | showIcon lib pic x y =>
    have hi : ∀ b, b = 1 ∨ b = 2 → SetsBit (.showIcon lib pic x y) b := fun b hb =>
      .inr ⟨hb, .inl ⟨lib, pic, x, y, rfl⟩⟩
    exact .inr ⟨rfl, _, fun _ => rfl, withClamped_touches (hi 1 (.inl rfl)) (hi 2 (.inr rfl)) x y _
      fun x' y' => [be2 x', be2 y', be1 (forceTop lib), be1 pic]⟩
  | directIcon x y addr =>
    have hi : ∀ b, b = 1 ∨ b = 2 → SetsBit (.directIcon x y addr) b := fun b hb =>
      .inr ⟨hb, .inr ⟨x, y, addr, rfl⟩⟩
    exact .inr ⟨rfl, _, fun _ => rfl, withClamped_touches (hi 1 (.inl rfl)) (hi 2 (.inr rfl)) x y _
      fun x' y' => [be2 x', be2 y', be1 0x80#8, be2 addr]⟩
  | areaCopy cache xs ys xe ye x y =>
    exact .inr ⟨rfl, _, fun _ => rfl, fun s => calm (runAll_frame_calm _
      [be1 (forceTop cache), be2 xs, be2 ys, be2 xe, be2 ye, be2 x, be2 y] s)⟩
  | memWrite type base data =>
    exact .inr ⟨rfl, _, fun _ => rfl, memWriteRule_touches type base data⟩
  | memWriteFlash base data =>
    exact .inr ⟨rfl, _, fun _ => rfl, fun s => refuse_touches rfl .rfMemType s⟩
  | putByte j v => exact .inl ⟨rfl, _, fun _ => rfl, fun s => calm (putByte_calm j v s)⟩
  | beginFrame op => exact .inl ⟨rfl, _, fun _ => rfl, fun s => calm (beginFrame_calm op s)⟩
  | wb v => exact .inl ⟨rfl, _, fun _ => rfl, fun s => calm (wb_calm v s)⟩
  | ww v => exact .inl ⟨rfl, _, fun _ => rfl, fun s => calm (ww_calm v s)⟩
  | wl v => exact .inl ⟨rfl, _, fun _ => rfl, fun s => calm (wl_calm v s)⟩
  | ws src =>
    exact .inl ⟨rfl, _, fun _ => rfl, fun s => (ws_butTrunc src s).mono fun _ h =>
      h.touches (.inl ⟨rfl, .inl ⟨src, rfl⟩⟩)⟩
  | sendBody => exact .inl ⟨rfl, _, fun _ => rfl, fun s => calm (sendBody_calm s)⟩
  | sendTail => exact .inl ⟨rfl, _, fun _ => rfl, fun s => calm (sendTail_calm s)⟩
  | xmit => exact .inl ⟨rfl, _, fun _ => rfl, fun s => calm (xmit_calm s)⟩
  | rawOut data j0 n => exact .inl ⟨rfl, _, fun _ => rfl, fun s => calm (rawOut_calm data j0 n s)⟩

/-- Beginning a command clears STATUS and makes the phase Busy; apart from the phase it touches nothing. -/
theorem Touches.of_begun {i : Instr} {s t : State} (h : Touches i (begun s) t) :
    Touches i s (t.setPhase s.phase) where
  keeps := ⟨h.keeps.cfg, h.keeps.port, rfl, h.keeps.trace, h.keeps.outside, h.keeps.canonical,
    h.keeps.inBuffer⟩
  sl := h.sl
  refused := h.refused
  status b hb := (h.status b hb).elim (fun h0 => by simp at h0) .inr

/-- Whatever the state, an instruction touches only what it may write; an internal operation keeps the phase
too (R24 to R29). -/
theorem exec_touches {i : Instr} {s t : State} (h : exec i s = .next t) :
    Touches i s (t.setPhase s.phase) ∧ (isCommand i = false → t.phase = s.phase) := by
  rcases exec_shape i with ⟨-, op, hop, hsat⟩ | ⟨hi, body, hbody, hsat⟩
  · have ht : Touches i s t :=
      runInternal_sat (fun s => (Calm.refl s).touches i) (hsat s) (hop s ▸ h)
    rw [← ht.keeps.phase]
    exact ⟨ht, fun _ => rfl⟩
  · refine ⟨?_, fun hn => by simp [hi] at hn⟩
    have hrun := hsat (begun s)
    rcases runCommand_next (hbody s ▸ h) with ⟨-, rfl⟩ | ⟨-, u, hgo, rfl⟩ | ⟨-, hstop⟩
    · exact (Calm.refl t).touches i
    · rw [hgo] at hrun
      exact hrun.of_begun
    · rw [hstop] at hrun
      exact hrun.of_begun

end Sys2Proof.Machine
end

section
/-! The frame statements of the whole machine: sticky marks, what no instruction writes, the buffer's bounds and
the setters of the STATUS bits (10_state R22 to R29). -/

namespace Sys2Proof
open Sys2Proof.Machine

/-! ### Marks -/

theorem accepts_of_stopped {s : State} (h : s.stopped = true) : s.accepts = false := by
  simp [State.accepts, h]

/-- Under either envelope nothing executes after a stop (R176, logs 7 and 8). -/
theorem exec_stopped {s : State} (h : s.stopped = true) (i : Instr) : exec i s = .next s := by
  rcases exec_shape i with ⟨-, op, hop, -⟩ | ⟨-, body, hbody, -⟩
  · rw [hop, runInternal_stopped op h]
  · rw [hbody, runCommand_held body (accepts_of_stopped h)]

/-- A block that can not accept waits (R194). -/
theorem step_held {s : State} (h : s.accepts = false) : step s = .next s := by
  unfold step
  split
  · rfl
  · simp [h]

/-- Settles O33: a mark makes the block unable to accept, and both envelopes test it. -/
theorem marksAreSticky : Obligations.MarksAreSticky := fun s hs =>
  have hstop := (State.stopped_iff s).2 hs
  ⟨step_held (accepts_of_stopped hstop), exec_stopped hstop⟩

/-! ### The frame of an instruction -/

/-- Settles O34: read off what an instruction touches. -/
theorem everyInstructionKeepsItsFrame : Obligations.EveryInstructionKeepsItsFrame := by
  intro s t i h
  obtain ⟨ht, hphase⟩ := exec_touches h
  exact ⟨ht.keeps.cfg, ht.keeps.port, ht.keeps.trace, ht.sl, fun hi => ⟨hphase hi, ht.refused hi⟩⟩

/-! ### Writes to the FrameBuffer -/

theorem sendBody_fb (s : State) : (sendBody s).Sat fun t => t.fb = s.fb := by
  unfold sendBody
  split
  · exact trivial
  · exact rfl

theorem rawOut_fb (data : List Byte) (j0 n : Nat) (s : State) :
    (rawOut data j0 n s).Sat fun t => t.fb = s.fb := by
  unfold rawOut
  split
  · exact rfl
  · exact trivial

/-- The operations of the transmitter read FB and write none of it (R111 to R114). -/
theorem exec_transmitter_fb {i : Instr} {s t : State}
    (hi : i = .sendBody ∨ i = .sendTail ∨ i = .xmit ∨ ∃ data j0 n, i = .rawOut data j0 n)
    (h : exec i s = .next t) : t.fb = s.fb := by
  have unwritten {op : State → Flow} (hop : (op s).Sat fun t => t.fb = s.fb)
      (h : runInternal op s = .next t) : t.fb = s.fb :=
    runInternal_sat (R := fun s t => t.fb = s.fb) (fun _ => rfl) hop h
  rcases hi with rfl | rfl | rfl | ⟨data, j0, n, rfl⟩
  · exact unwritten (sendBody_fb s) h
  · exact unwritten (op := sendTail) rfl h
  · exact unwritten (xmit_fb s) h
  · exact unwritten (rawOut_fb data j0 n s) h

/-- Settles O35: cells from CAP up are outside what an instruction touches, and the transmitter's operations
keep FB whole. -/
theorem writesStayInTheBuffer : Obligations.WritesStayInTheBuffer := fun _ _ _ h =>
  ⟨(exec_touches h).1.keeps.outside, fun hi => exec_transmitter_fb hi h⟩

/-! ### STATUS bits -/

/-- Settles O36: the setters are the bits an instruction may touch. -/
theorem statusBitsHaveTheirSetters : Obligations.StatusBitsHaveTheirSetters := fun _ _ _ b h hb =>
  (exec_touches h).1.status b hb

end Sys2Proof
end

section
/-!
How an accepted command leaves the block: a frame sent, sub-frames sent, a refusal, or, with STRING_BOUND =
Literal, the overrun of a text (10_state R28, 60_exceptions R171 to R175).
-/

namespace Sys2Proof.Machine

/-- How an accepted command leaves the phase and the marks: completed; stopped by an overrun, which only
`Literal` admits (R97); or refused (R175). -/
inductive Ended (t : State) : Prop where
  | completed (phase : t.phase = .idle) (fault : t.fault = none) (refused : t.refused = none)
  | overrun (i : Nat) (phase : t.phase = .busy) (fault : t.fault = some (.overrun i))
      (refused : t.refused = none) (outside : t.cfg.cap ≤ i) (literal : t.cfg.stringBound = .literal)
  | refused (phase : t.phase = .busy) (fault : t.fault = none)
      (refused : t.refused = some .rfMemType ∨ t.refused = some .rfLength)

/-- What the invariant asks of the end of a command beyond what every instruction keeps: the cursor is inside the
buffer, the lead cells are unwritten, and the marks are those of one of the ends. -/
structure EndsWell (s t : State) : Prop where
  cursor : t.c ≤ s.cfg.cap
  lead : ∀ j, j < leadLen s.cfg.lead → t.fb.read? j = s.fb.read? j
  ended : Ended t

/-! ### The invariant from the end of a command -/

theorem ready_of_inv {s : State} (hi : Inv s) (ha : s.accepts = true) : Ready s := by
  obtain ⟨hphase, hfault, hrefused⟩ := (State.accepts_iff s).1 ha
  have hvalid : cfgValid s.cfg = true := by
    by_contra h
    have := hi.config.2 (by simpa using h)
    simp [hrefused] at this
  exact ⟨hphase, hfault, hrefused, hvalid, hi.lead hvalid⟩

/-- The invariant does not look at the port. -/
theorem inv_setPort {s : State} (hi : Inv s) (cs : List Command) : Inv (s.setPort cs) :=
  ⟨hi.canonical, hi.inBuffer, hi.cursor, hi.reserved, hi.lead, hi.oneMark, hi.config, hi.busy, hi.overrun⟩

/-- The lead byte stays in place when the cells below the lead position are not written. -/
theorem leadHeld_of_lead_cells {s t : State} (hcfg : t.cfg = s.cfg)
    (hcells : ∀ j, j < leadLen s.cfg.lead → t.fb.read? j = s.fb.read? j) (hl : leadHeld s = true) :
    leadHeld t = true := by
  rw [leadHeld_iff] at hl ⊢
  intro b hb
  rw [hcfg] at hb
  rw [hcells 0 (by simp [hb, leadLen]), hl b hb]

/-- No instruction sets a reserved STATUS bit (R25). -/
theorem reserved_of_touches {i : Instr} {s t : State} (h : Touches i s t) (hs : s.status.toNat < 8) :
    t.status.toNat < 8 := by
  refine Nat.lt_pow_two_of_testBit (n := 3) _ fun b hb => ?_
  by_contra hbit
  rcases h.status b (by simpa [BitVec.getLsbD] using hbit) with hold | hset
  · have : s.status.toNat.testBit b = false :=
      Nat.testBit_lt_two_pow (lt_of_lt_of_le hs (Nat.pow_le_pow_right (n := 2) (by decide) hb))
    simp [BitVec.getLsbD, this] at hold
  · rcases hset with ⟨rfl, -⟩ | ⟨rfl | rfl, -⟩ <;> omega

/-- The marks and the phase an ended command leaves, as the invariant has them under a valid configuration. -/
theorem Ended.marks {t : State} (h : Ended t) :
    (t.fault = none ∨ t.refused = none) ∧ t.refused ≠ some .rfConfig ∧
    (t.phase = .busy ↔ t.fault ≠ none ∨ t.refused = some .rfMemType ∨ t.refused = some .rfLength) ∧
    (∀ i, t.fault = some (.overrun i) → t.cfg.cap ≤ i ∧ t.cfg.stringBound = .literal) := by
  cases h with
  | completed hphase hfault hrefused => simp [hphase, hfault, hrefused]
  | overrun i hphase hfault hrefused hout hlit =>
    refine ⟨.inr hrefused, by simp [hrefused], by simp [hphase, hfault], fun j hj => ?_⟩
    obtain rfl : i = j := by simpa [hfault] using hj
    exact ⟨hout, hlit⟩
  | refused hphase hfault hrefused =>
    rcases hrefused with h | h <;> simp [hphase, hfault, h]

/-- An accepted command that ends well keeps the invariant. -/
theorem inv_of_endsWell {i : Instr} {s t : State} (hi : Inv s) (hr : Ready s) (hexec : exec i s = .next t)
    (h : EndsWell s t) : Inv t := by
  have htouch := (exec_touches hexec).1
  have hcfg : t.cfg = s.cfg := htouch.keeps.cfg
  obtain ⟨honeMark, hnotConfig, hbusy, hoverrun⟩ := h.ended.marks
  exact {
    canonical := htouch.keeps.canonical hi.canonical
    inBuffer := hcfg ▸ htouch.keeps.inBuffer hi.inBuffer
    cursor := hcfg ▸ h.cursor
    reserved := reserved_of_touches (t := t.setPhase s.phase) htouch hi.reserved
    lead := fun _ => leadHeld_of_lead_cells hcfg h.lead hr.lead
    oneMark := honeMark
    config := by simp [hnotConfig, hcfg, hr.valid]
    busy := hbusy
    overrun := hoverrun }

/-! ### Frames -/

/-- A command that sends one frame ends well. -/
theorem endsWell_of_sendsFrame {s t : State} {body : List Byte} {v : Byte} (hr : Ready s)
    (hlen : leadLen s.cfg.lead + body.length ≤ s.cfg.cap) (h : SendsFrame s t body v) : EndsWell s t := by
  obtain ⟨hform, -, hout⟩ := h
  exact ⟨(congrArg State.c hform).trans_le hlen, fun j hj => hout j (.inl hj),
    .completed ((congrArg State.phase hform).trans hr.idle)
      ((congrArg State.fault hform).trans hr.noFault) ((congrArg State.refused hform).trans hr.noRefusal)⟩

/-- A command whose frame has at most 15 bytes after its opcode ends well: the frame fits (R13). -/
theorem runCommand_frame_endsWell {s : State} (hr : Ready s) {body : State → Flow} (op : Byte)
    (bss : List (List Byte)) (v : Byte) (hlen : bss.flatten.length ≤ 15)
    (hb : body (begun s) =
      runAll (beginFrame op :: (bss.map appendBytes ++ [xmit])) ((begun s).setStatus v)) :
    ∃ t, runCommand body s = .next t ∧ EndsWell s t := by
  obtain ⟨t, ht, hsends⟩ := runCommand_frame hr op bss v hlen hb
  have hcap := cap_of_valid hr.valid
  exact ⟨t, ht, endsWell_of_sendsFrame hr (by rw [List.length_cons]; omega) hsends⟩

/-- SHOW_ICON and DIRECT_ICON end well: the clamps leave a STATUS, then a short frame is sent. -/
theorem runCommand_clamped_endsWell {s : State} (hr : Ready s) (x y : Word16) (op : Byte)
    (bss : Word16 → Word16 → List (List Byte)) (hlen : ∀ x' y', (bss x' y').flatten.length ≤ 15) :
    ∃ t, runCommand (withClamped x y fun x' y' =>
      beginFrame op :: ((bss x' y').map appendBytes ++ [xmit])) s = .next t ∧ EndsWell s t :=
  runCommand_frame_endsWell hr op _ _ (hlen _ _)
    (congrArg (runAll _) (markClamps_begun (s := s) hr.valid x y))

/-! ### The text frame -/

/-- The bytes of a text that WS copies onto a body being built (R95). -/
def textCopied (s : State) (body : List Byte) (text : TextSource) : List Byte :=
  (textOnWire text).take (remaining s.cfg (leadLen s.cfg.lead + body.length - 1))

/-- WS overruns on a body inside the buffer with STRING_BOUND = Literal only (R95, R97). -/
theorem literal_of_text_overruns {s : State} {body : List Byte} {text : TextSource} (hb : body ≠ [])
    (hbody : leadLen s.cfg.lead + body.length ≤ s.cfg.cap)
    (h : s.cfg.cap < leadLen s.cfg.lead + body.length + (textCopied s body text).length) :
    s.cfg.stringBound = .literal := by
  have hpos := List.length_pos_iff.2 hb
  have hcopied := List.length_take_le (remaining s.cfg (leadLen s.cfg.lead + body.length - 1))
    (textOnWire text)
  cases hbound : s.cfg.stringBound with
  | literal => rfl
  | safe =>
    simp only [textCopied, remaining, hbound] at h hcopied
    omega

/-- A text that fits is appended to the body and the frame is sent. -/
theorem textTail_sent {s : State} {body : List Byte} {text : TextSource} (hb : body ≠ [])
    (hl : leadHeld s = true)
    (h : leadLen s.cfg.lead + body.length + (textCopied s body text).length ≤ s.cfg.cap) :
    ∃ v, runAll [ws text, xmit] (withBody s body) =
      .go (sent (s.setStatus v) (body ++ textCopied s body text)) := by
  obtain ⟨v, hws⟩ : ∃ v, ws text (withBody s body) =
      .go (withBody (s.setStatus v) (body ++ textCopied s body text)) := ⟨_, ws_withBody hb text h⟩
  have hfit : leadLen s.cfg.lead + (body ++ textCopied s body text).length ≤ s.cfg.cap := by
    rwa [List.length_append, ← Nat.add_assoc]
  refine ⟨v, ?_⟩
  rw [runAll_cons, hws, Flow.bind_go, runAll_cons, xmit_sent (s := s.setStatus v) (by simp [hb]) hfit hl]
  rfl

/-- A text that reaches CAP fills the buffer and stops there, the cursor still on the body (R95). -/
theorem textTail_overruns {s : State} {body : List Byte} {text : TextSource} (hb : body ≠ [])
    (hbody : leadLen s.cfg.lead + body.length ≤ s.cfg.cap)
    (h : s.cfg.cap < leadLen s.cfg.lead + body.length + (textCopied s body text).length) :
    ∃ bs, runAll [ws text, xmit] (withBody s body) =
      .stop (((withBody s body).setFb (s.fb.writeAll (leadLen s.cfg.lead) (body ++ bs))).setFault
        (some (.overrun s.cfg.cap))) := by
  have hpos := List.length_pos_iff.2 hb
  have hc : (withBody s body).c + 1 = leadLen s.cfg.lead + body.length := by
    rw [withBody_c]
    omega
  have hne : textCopied s body text ≠ [] := by
    intro hnil
    rw [hnil, List.length_nil] at h
    omega
  have hstop := appendBytes_stop (s := withBody s body) hne (by rw [hc]; exact h)
  rw [hc, withBody_cfg, withBody_fb, ← Memory.writeAll_append, Nat.max_eq_right hbody] at hstop
  rw [runAll_cons, ws_eq, withBody_cfg, withBody_c, ← textCopied, hstop, Flow.bind_stop, Flow.bind_stop]
  exact ⟨_, rfl⟩

/-- BEGIN, writers, WS and XMIT, the shape of DRAW_TEXT, end well: the text fits and the frame is sent, or it
reaches CAP, under Literal. -/
theorem runCommand_textFrame_endsWell {s : State} (hr : Ready s) (op : Byte) (bss : List (List Byte))
    (text : TextSource) (hlen : bss.flatten.length ≤ 15) :
    ∃ t, runCommand (runAll (beginFrame op :: (bss.map appendBytes ++ [ws text, xmit]))) s = .next t ∧
      EndsWell s t := by
  have hcap := cap_of_valid hr.valid
  have hne : op :: bss.flatten ≠ [] := List.cons_ne_nil _ _
  have hbody : leadLen s.cfg.lead + (op :: bss.flatten).length ≤ s.cfg.cap := by
    rw [List.length_cons]
    omega
  have hbuild := runAll_build (s := begun s) op bss [ws text, xmit]
    (show leadLen s.cfg.lead + 1 + bss.flatten.length ≤ s.cfg.cap by omega)
  by_cases hfit : leadLen s.cfg.lead + (op :: bss.flatten).length +
      (textCopied s (op :: bss.flatten) text).length ≤ s.cfg.cap
  · obtain ⟨v, hsent⟩ := textTail_sent (s := begun s) hne hr.lead hfit
    exact ⟨_, runCommand_go (ready_accepts hr) (hbuild.trans hsent), endsWell_of_sendsFrame hr
      (by rwa [List.length_append, ← Nat.add_assoc]) (sendsFrame_sent hr.idle _ v)⟩
  · have hover := Nat.lt_of_not_le hfit
    obtain ⟨tail, hstop⟩ := textTail_overruns (s := begun s) hne hbody hover
    exact ⟨_, runCommand_stop (ready_accepts hr) (hbuild.trans hstop), {
      cursor := (Nat.sub_le _ 1).trans hbody
      lead := fun j hj => Memory.read?_writeAll_outside _ _ (.inl hj)
      ended := .overrun s.cfg.cap rfl rfl hr.noRefusal le_rfl
        (literal_of_text_overruns hne hbody hover) }⟩

/-! ### MEM_WRITE -/

/-- A refused command ends well. -/
theorem runCommand_refuse_endsWell {s : State} (hr : Ready s) (hc : s.c ≤ s.cfg.cap) {body : State → Flow}
    {r : RefusedMark} (hmark : r = .rfMemType ∨ r = .rfLength) (hb : body (begun s) = refuse r (begun s)) :
    ∃ t, runCommand body s = .next t ∧ EndsWell s t :=
  ⟨_, runCommand_stop (ready_accepts hr) hb, hc, fun _ _ => rfl,
    .refused rfl hr.noFault (hmark.imp (congrArg some) (congrArg some))⟩

/-- MEM_WRITE ends well, whatever its type selector: refused, or all its sub-frames sent (R150, R151). -/
theorem runCommand_memWriteRule_endsWell {s : State} (hr : Ready s) (hc : s.c ≤ s.cfg.cap) (type : Byte)
    (base : Word16) (data : List Byte) :
    ∃ t, runCommand (memWriteRule type base data) s = .next t ∧ EndsWell s t := by
  have hcap := cap_of_valid hr.valid
  by_cases htype : type = 0x5A#8
  · subst htype
    by_cases hlong : s.cfg.lMax < data.length
    · exact runCommand_refuse_endsWell hr hc (.inr rfl) (memWriteRule_tooLong (s := begun s) hlong base)
    · have hrule := memWriteRule_admitted (s := begun s) (Nat.not_lt.1 hlong) base
      obtain ⟨t, hloop, hform, -, -, -, -, hnone, hsome, -, -, hout⟩ :=
        chunkLoop_go data data.length (slicerEntry 0x5A#8 base data.length (begun s))
          (chunkMax_of_valid hr.valid) (show leadLen s.cfg.lead + 4 ≤ s.cfg.cap by omega) hr.lead rfl
          (by simp [slicerEntry]) le_rfl
      refine ⟨_, runCommand_go (ready_accepts hr) (hrule.trans hloop), ?_, fun j hj => hout j (.inl hj),
        .completed rfl ((congrArg State.fault hform).trans hr.noFault)
          ((congrArg State.refused hform).trans hr.noRefusal)⟩
      rcases Nat.eq_zero_or_pos data.length with hzero | hpos
      · rw [hnone hzero]
        exact hc
      · refine (hsome hpos).1.trans_le ?_
        show leadLen s.cfg.lead + 4 ≤ s.cfg.cap
        omega
  · exact runCommand_refuse_endsWell hr hc (.inl rfl) (memWriteRule_wrongType htype base data (begun s))

/-- A MEM_WRITE command record runs the rule of MEM_WRITE with its own type selector (log 16). -/
theorem exec_commandInstr_memWrite (type : Byte) (base : Word16) (data : List Byte) (s : State) :
    exec (commandInstr (.memWrite type base data)) s = runCommand (memWriteRule type base data) s := by
  by_cases h : type = 0xA5#8
  · subst h
    rfl
  · rw [commandInstr, if_neg h]
    rfl

/-! ### Every command -/

/-- Every command a ready block accepts answers a next state and ends well. -/
theorem exec_commandInstr_endsWell {s : State} (hr : Ready s) (hc : s.c ≤ s.cfg.cap) (cmd : Command) :
    ∃ t, exec (commandInstr cmd) s = .next t ∧ EndsWell s t := by
  cases cmd with
  | drawText wa bs size fg bg x y text =>
    exact runCommand_textFrame_endsWell hr 0x11#8 [be1 (textFlags wa bs size), be2 fg, be2 bg, be2 x, be2 y]
      text (by simp [be1, be2])
  | drawFloat bs zf zm size fg bg inum fnum x y value =>
    exact runCommand_frame_endsWell hr 0x14#8 [be1 (floatFlags bs zf zm size), be2 fg, be2 bg, be1 inum,
      be1 fnum, be2 x, be2 y, be4 (twos32 value)] 0#8 (by simp [be1, be2, be4]) rfl
  | showIcon lib pic x y =>
    exact runCommand_clamped_endsWell hr x y 0x23#8
      (fun x' y' => [be2 x', be2 y', be1 (forceTop lib), be1 pic]) fun _ _ => by simp [be1, be2]
  | directIcon x y addr =>
    exact runCommand_clamped_endsWell hr x y 0x24#8
      (fun x' y' => [be2 x', be2 y', be1 0x80#8, be2 addr]) fun _ _ => by simp [be1, be2]
  | areaCopy cache xs ys xe ye x y =>
    exact runCommand_frame_endsWell hr 0x27#8 [be1 (forceTop cache), be2 xs, be2 ys, be2 xe, be2 ye, be2 x,
      be2 y] 0#8 (by simp [be1, be2]) rfl
  | memWrite type base data =>
    rw [exec_commandInstr_memWrite]
    exact runCommand_memWriteRule_endsWell hr hc type base data

end Sys2Proof.Machine

namespace Sys2Proof
open Sys2Proof.Machine

/-- A block that accepts runs its oldest command, the request taken off the port (R194). -/
theorem step_accepted {s : State} {cmd : Command} {rest : List Command} (hp : s.port = cmd :: rest)
    (ha : s.accepts = true) : step s = exec (commandInstr cmd) (s.setPort rest) := by
  simp [step, hp, ha]

/-- With nothing on the port the block waits (R191). -/
theorem step_noRequest {s : State} (hp : s.port = []) : step s = .next s := by
  simp [step, hp]

/-- Settles O40: a waiting block is unchanged, and a command that a block in the invariant accepts ends well. -/
theorem stepKeepsTheInvariant : Obligations.StepKeepsTheInvariant := by
  intro s hi
  by_cases ha : s.accepts = true
  · cases hp : s.port with
    | nil => exact ⟨s, step_noRequest hp, hi⟩
    | cons cmd rest =>
      have hi' : Inv (s.setPort rest) := inv_setPort hi rest
      have hr' : Ready (s.setPort rest) := ready_of_inv hi' ha
      obtain ⟨t, hexec, hends⟩ := exec_commandInstr_endsWell hr' hi'.cursor cmd
      exact ⟨t, (step_accepted hp ha).trans hexec, inv_of_endsWell hi' hr' hexec hends⟩
  · exact ⟨s, step_held (by simpa using ha), hi⟩

end Sys2Proof
end


section
/-!
The wire frame as an encoding: what each decoder accepts, said once; then decode of encode and encode of decode
(30_encoding R61 to R78).
-/

namespace Sys2Proof
open Sys2Proof.Machine

/-! ### The flag and id bytes joined again from their fields -/

/-- The flag byte of DRAW_TEXT is its fields when its reserved bits are 0 (R69, R76). -/
theorem textFlagByte_join {flags : Byte} (h : flags.extractLsb' 4 2 = 0#2) :
    BitVec.ofBool (flags.getLsbD 7) ++ BitVec.ofBool (flags.getLsbD 6) ++ 0#2 ++
      ((flags.extractLsb' 0 4).setWidth 8).extractLsb' 0 4 = flags := by
  have key : ∀ f : Byte, f.extractLsb' 4 2 = 0#2 →
      BitVec.ofBool (f.getLsbD 7) ++ BitVec.ofBool (f.getLsbD 6) ++ 0#2 ++
        ((f.extractLsb' 0 4).setWidth 8).extractLsb' 0 4 = f := by decide +kernel
  exact key flags h

/-- The flag byte of DRAW_FLOAT is its fields when its reserved bit is 0 (R70, R76). -/
theorem floatFlagByte_join {flags : Byte} (h : flags.getLsbD 6 = false) :
    BitVec.ofBool (flags.getLsbD 7) ++ 0#1 ++ BitVec.ofBool (flags.getLsbD 5) ++
      BitVec.ofBool (flags.getLsbD 4) ++ ((flags.extractLsb' 0 4).setWidth 8).extractLsb' 0 4 = flags := by
  have key : ∀ f : Byte, f.getLsbD 6 = false →
      BitVec.ofBool (f.getLsbD 7) ++ 0#1 ++ BitVec.ofBool (f.getLsbD 5) ++
        BitVec.ofBool (f.getLsbD 4) ++ ((f.extractLsb' 0 4).setWidth 8).extractLsb' 0 4 = f := by
    decide +kernel
  exact key flags h

/-- An id byte is its low seven bits under the forced top bit (R71). -/
theorem idByte_join {id : Byte} (h : id.getLsbD 7 = true) :
    1#1 ++ ((id.extractLsb' 0 7).setWidth 8).extractLsb' 0 7 = id := by
  have key : ∀ n : Byte, n.getLsbD 7 = true →
      1#1 ++ ((n.extractLsb' 0 7).setWidth 8).extractLsb' 0 7 = n := by decide +kernel
  exact key id h

/-- A font size read from a frame is below 16. -/
theorem lowBits4_and (n : BitVec 4) : n.setWidth 8 &&& 0x0F#8 = n.setWidth 8 := by
  have key : ∀ n : BitVec 4, n.setWidth 8 &&& 0x0F#8 = n.setWidth 8 := by decide
  exact key n

/-- An id read from a frame is below 128. -/
theorem lowBits7_and (n : BitVec 7) : n.setWidth 8 &&& 0x7F#8 = n.setWidth 8 := by
  have key : ∀ n : BitVec 7, n.setWidth 8 &&& 0x7F#8 = n.setWidth 8 := by decide +kernel
  exact key n

/-- A text without 0x00 goes on the wire whole (R96). -/
theorem textOnWire_runtime {text : List Byte} (h : 0#8 ∉ text) : textOnWire (.runtime text) = text :=
  List.takeWhile_eq_self_iff.2 fun _ hb => bne_iff_ne.2 fun h0 => h (h0 ▸ hb)

/-! ### What each decoder accepts -/

/-- The bytes of a DRAW_TEXT frame (R61): reserved bits 0, no 0x00 in the text. -/
theorem decodeDrawText_ok_iff {rest : List Byte} {i : Instr} : decodeDrawText rest = .ok i ↔
    ∃ flags fg bg x y text, flags.extractLsb' 4 2 = 0#2 ∧ 0#8 ∉ text ∧
      rest = flags :: (be2 fg ++ be2 bg ++ be2 x ++ be2 y ++ text) ∧
      i = .drawText (flags.getLsbD 7) (flags.getLsbD 6) ((flags.extractLsb' 0 4).setWidth 8) fg bg x y
        (.runtime text) := by
  constructor
  · intro h
    unfold decodeDrawText at h
    split at h
    next flags fg1 fg0 bg1 bg0 x1 x0 y1 y0 text =>
      split at h
      · cases h
      split at h
      · cases h
      next hres hnul =>
        cases h
        exact ⟨flags, word16Of fg1 fg0, word16Of bg1 bg0, word16Of x1 x0, word16Of y1 y0, text,
          by simpa using hres, by simpa using hnul, by simp [be2_word16Of], rfl⟩
    · cases h
  · rintro ⟨flags, fg, bg, x, y, text, hres, hnul, rfl, rfl⟩
    simp [decodeDrawText, be2, hres, hnul, word16Of_split]

/-- The bytes of a DRAW_FLOAT frame (R62): reserved bit 0. -/
theorem decodeDrawFloat_ok_iff {rest : List Byte} {i : Instr} : decodeDrawFloat rest = .ok i ↔
    ∃ flags fg bg inum fnum x y value, flags.getLsbD 6 = false ∧
      rest = flags :: (be2 fg ++ be2 bg ++ [inum, fnum] ++ be2 x ++ be2 y ++ be4 value.toBitVec) ∧
      i = .drawFloat (flags.getLsbD 7) (flags.getLsbD 5) (flags.getLsbD 4)
        ((flags.extractLsb' 0 4).setWidth 8) fg bg inum fnum x y value := by
  constructor
  · intro h
    unfold decodeDrawFloat at h
    split at h
    next flags fg1 fg0 bg1 bg0 inum fnum x1 x0 y1 y0 v3 v2 v1 v0 =>
      split at h
      · cases h
      next hres =>
        cases h
        exact ⟨flags, word16Of fg1 fg0, word16Of bg1 bg0, inum, fnum, word16Of x1 x0, word16Of y1 y0,
          Int32.ofBitVec (word32Of v3 v2 v1 v0), by simpa using hres,
          by simp [be2_word16Of, be4_word32Of], rfl⟩
    · cases h
  · rintro ⟨flags, fg, bg, inum, fnum, x, y, value, hres, rfl, rfl⟩
    simpa [decodeDrawFloat, be2, be4, word16Of_split, word32Of_split] using hres

/-- The bytes of a SHOW_ICON frame (R63): the forced top bit of `lib` set. -/
theorem decodeShowIcon_ok_iff {rest : List Byte} {i : Instr} : decodeShowIcon rest = .ok i ↔
    ∃ lib pic x y, lib.getLsbD 7 = true ∧ rest = be2 x ++ be2 y ++ [lib, pic] ∧
      i = .showIcon ((lib.extractLsb' 0 7).setWidth 8) pic x y := by
  constructor
  · intro h
    unfold decodeShowIcon at h
    split at h
    next x1 x0 y1 y0 lib pic =>
      split at h
      next htop =>
        cases h
        exact ⟨lib, pic, word16Of x1 x0, word16Of y1 y0, htop, by simp [be2_word16Of], rfl⟩
      · cases h
    · cases h
  · rintro ⟨lib, pic, x, y, htop, rfl, rfl⟩
    simp [decodeShowIcon, be2, htop, word16Of_split]

/-- The bytes of a DIRECT_ICON frame (R64): the marker 0x80 in its place. -/
theorem decodeDirectIcon_ok_iff {rest : List Byte} {i : Instr} : decodeDirectIcon rest = .ok i ↔
    ∃ x y addr, rest = be2 x ++ be2 y ++ [0x80#8] ++ be2 addr ∧ i = .directIcon x y addr := by
  constructor
  · intro h
    unfold decodeDirectIcon at h
    split at h
    next x1 x0 y1 y0 marker a1 a0 =>
      split at h
      next hmarker =>
        cases h
        exact ⟨word16Of x1 x0, word16Of y1 y0, word16Of a1 a0, by simp [be2_word16Of, hmarker], rfl⟩
      · cases h
    · cases h
  · rintro ⟨x, y, addr, rfl, rfl⟩
    simp [decodeDirectIcon, be2, word16Of_split]

/-- The bytes of an AREA_COPY frame (R65): the forced top bit of `cache` set. -/
theorem decodeAreaCopy_ok_iff {rest : List Byte} {i : Instr} : decodeAreaCopy rest = .ok i ↔
    ∃ cache xs ys xe ye x y, cache.getLsbD 7 = true ∧
      rest = cache :: (be2 xs ++ be2 ys ++ be2 xe ++ be2 ye ++ be2 x ++ be2 y) ∧
      i = .areaCopy ((cache.extractLsb' 0 7).setWidth 8) xs ys xe ye x y := by
  constructor
  · intro h
    unfold decodeAreaCopy at h
    split at h
    next cache xs1 xs0 ys1 ys0 xe1 xe0 ye1 ye0 x1 x0 y1 y0 =>
      split at h
      next htop =>
        cases h
        exact ⟨cache, word16Of xs1 xs0, word16Of ys1 ys0, word16Of xe1 xe0, word16Of ye1 ye0,
          word16Of x1 x0, word16Of y1 y0, htop, by simp [be2_word16Of], rfl⟩
      · cases h
    · cases h
  · rintro ⟨cache, xs, ys, xe, ye, x, y, htop, rfl, rfl⟩
    simp [decodeAreaCopy, be2, htop, word16Of_split]

/-- The bytes of a 0x31 sub-frame (R66): one of the two type selectors (R75, log 12). -/
theorem decodeMemWrite_ok_iff {rest : List Byte} {i : Instr} : decodeMemWrite rest = .ok i ↔
    ∃ base data, rest = 0x5A#8 :: (be2 base ++ data) ∧ i = .memWrite 0x5A#8 base data ∨
      rest = 0xA5#8 :: (be2 base ++ data) ∧ i = .memWriteFlash base data := by
  constructor
  · intro h
    unfold decodeMemWrite at h
    split at h
    next type a1 a0 data =>
      refine ⟨word16Of a1 a0, data, ?_⟩
      split at h
      next htype =>
        cases h
        exact .inl ⟨by simp [be2_word16Of, htype], rfl⟩
      split at h
      next htype =>
        cases h
        exact .inr ⟨by simp [be2_word16Of, htype], rfl⟩
      · cases h
    · cases h
  · rintro ⟨base, data, ⟨rfl, rfl⟩ | ⟨rfl, rfl⟩⟩ <;> simp [decodeMemWrite, be2, word16Of_split]

/-- Which decoder has read an accepted byte string: the opcode decides (R73, R74). -/
theorem decode_ok_cases {bytes : List Byte} {i : Instr} (h : decode bytes = .ok i) : ∃ rest,
    (bytes = 0x11#8 :: rest ∧ decodeDrawText rest = .ok i) ∨
    (bytes = 0x14#8 :: rest ∧ decodeDrawFloat rest = .ok i) ∨
    (bytes = 0x23#8 :: rest ∧ decodeShowIcon rest = .ok i) ∨
    (bytes = 0x24#8 :: rest ∧ decodeDirectIcon rest = .ok i) ∨
    (bytes = 0x27#8 :: rest ∧ decodeAreaCopy rest = .ok i) ∨
    (bytes = 0x31#8 :: rest ∧ decodeMemWrite rest = .ok i) := by
  cases bytes with
  | nil => cases h
  | cons op rest =>
    refine ⟨rest, ?_⟩
    simp only [decode] at h
    split_ifs at h <;> simp [*]

/-! ### Decode of encode -/

/-- Settles O42: every encoding is one of the byte strings its decoder accepts, and the fields read from its
flag or id byte are the operands' low bits. -/
theorem decodeOfEncode : Obligations.DecodeOfEncode := by
  intro i bytes h
  cases i with
  | drawText wa bs size fg bg x y text =>
    obtain rfl := Option.some.inj h
    obtain ⟨hres, hwa, hbs, hsize⟩ := textFlagByte_fields wa bs size
    refine decodeDrawText_ok_iff.2 ⟨_, fg, bg, x, y, _, hres, zero_not_mem_textOnWire text, rfl, ?_⟩
    rw [hwa, hbs, hsize]
    rfl
  | drawFloat bs zf zm size fg bg inum fnum x y value =>
    obtain rfl := Option.some.inj h
    obtain ⟨hres, hbs, hzf, hzm, hsize⟩ := floatFlagByte_fields bs zf zm size
    refine decodeDrawFloat_ok_iff.2 ⟨_, fg, bg, inum, fnum, x, y, value, hres, rfl, ?_⟩
    rw [hbs, hzf, hzm, hsize]
    rfl
  | showIcon lib pic x y =>
    obtain rfl := Option.some.inj h
    obtain ⟨htop, hlib⟩ := idByte_fields lib
    exact decodeShowIcon_ok_iff.2 ⟨_, pic, x, y, htop, rfl, by rw [hlib]; rfl⟩
  | directIcon x y addr =>
    obtain rfl := Option.some.inj h
    exact decodeDirectIcon_ok_iff.2 ⟨x, y, addr, rfl, rfl⟩
  | areaCopy cache xs ys xe ye x y =>
    obtain rfl := Option.some.inj h
    obtain ⟨htop, hcache⟩ := idByte_fields cache
    exact decodeAreaCopy_ok_iff.2 ⟨_, xs, ys, xe, ye, x, y, htop, rfl, by rw [hcache]; rfl⟩
  | memWrite type base data =>
    by_cases htype : type = 0x5A#8
    · subst htype
      obtain rfl := Option.some.inj h
      exact decodeMemWrite_ok_iff.2 ⟨base, data, .inl ⟨rfl, rfl⟩⟩
    · simp [encode, htype] at h
  | memWriteFlash base data =>
    obtain rfl := Option.some.inj h
    exact decodeMemWrite_ok_iff.2 ⟨base, data, .inr ⟨rfl, rfl⟩⟩
  | _ => cases h

/-! ### Encode of decode -/

/-- Settles O43: each accepted byte string is split into its fields, and the flag or id byte is joined again
from the bits read from it. -/
theorem encodeOfDecode : Obligations.EncodeOfDecode := by
  intro bytes i h
  obtain ⟨rest, ⟨rfl, h⟩ | ⟨rfl, h⟩ | ⟨rfl, h⟩ | ⟨rfl, h⟩ | ⟨rfl, h⟩ | ⟨rfl, h⟩⟩ := decode_ok_cases h
  · obtain ⟨flags, fg, bg, x, y, text, hres, hnul, rfl, rfl⟩ := decodeDrawText_ok_iff.1 h
    refine ⟨?_, rfl, ?_⟩
    · rw [encode, textFlagByte_join hres, textOnWire_runtime hnul]
    · rw [wireForm, lowBits4_and, textOnWire_runtime hnul]
  · obtain ⟨flags, fg, bg, inum, fnum, x, y, value, hres, rfl, rfl⟩ := decodeDrawFloat_ok_iff.1 h
    exact ⟨by rw [encode, floatFlagByte_join hres], rfl, by rw [wireForm, lowBits4_and]⟩
  · obtain ⟨lib, pic, x, y, htop, rfl, rfl⟩ := decodeShowIcon_ok_iff.1 h
    exact ⟨by rw [encode, idByte_join htop], rfl, by rw [wireForm, lowBits7_and]⟩
  · obtain ⟨x, y, addr, rfl, rfl⟩ := decodeDirectIcon_ok_iff.1 h
    exact ⟨rfl, rfl, rfl⟩
  · obtain ⟨cache, xs, ys, xe, ye, x, y, htop, rfl, rfl⟩ := decodeAreaCopy_ok_iff.1 h
    exact ⟨by rw [encode, idByte_join htop], rfl, by rw [wireForm, lowBits7_and]⟩
  · obtain ⟨base, data, ⟨rfl, rfl⟩ | ⟨rfl, rfl⟩⟩ := decodeMemWrite_ok_iff.1 h <;> exact ⟨rfl, rfl, rfl⟩

end Sys2Proof
end

section
/-! The table words: an instruction that is read is a command, and the step runs it (30_encoding R73, R75). -/

namespace Sys2Proof
open Sys2Proof.Machine

/-- Settles O41: the seven byte strings are read by evaluation. -/
theorem specWordsDecode : Obligations.SpecWordsDecode :=
  ⟨by decide, by decide, by decide, by decide, by decide, by decide, rfl⟩

/-- An instruction that has an encoding is what its command record asks for (R67, R73). -/
theorem command_of_encode {i : Instr} {bytes : List Byte} (h : encode i = some bytes) :
    ∃ cmd, instrCommand? i = some cmd ∧ commandInstr cmd = i := by
  cases i with
  | drawText | drawFloat | showIcon | directIcon | areaCopy | memWriteFlash => exact ⟨_, rfl, rfl⟩
  | memWrite type base data =>
    by_cases htype : type = 0x5A#8
    · subst htype
      exact ⟨_, rfl, rfl⟩
    · simp [encode, htype] at h
  | _ => cases h

/-- A table word is read as the decoder reads its completed frame (log 12). -/
theorem decode_of_decodeTableWord {nbits w : Nat} {i : Instr} (h : decodeTableWord nbits w = some i) :
    decode (completeFrame (tableBytes ((nbits + 7) / 8) w)) = .ok i := by
  unfold decodeTableWord at h
  split at h
  next i' hread => rw [hread, Option.some.inj h]
  · cases h

/-- A placed word stands first on the port of a block that accepts (log 13). -/
theorem withFetchWord_of_command {nbits w : Nat} {i : Instr} {cmd : Command}
    (h : decodeTableWord nbits w = some i) (hcmd : instrCommand? i = some cmd) (s : State) :
    s.withFetchWord nbits w =
      (((s.setPort (cmd :: s.port)).setPhase .idle).setFault none).setRefused none := by
  simp [State.withFetchWord, h, hcmd]

/-- Settles O5: what the decoder reads has an encoding, so it is a command, and the step runs the command placed
first on the port. -/
theorem stepRunsTheDecodedWord : Obligations.StepRunsTheDecodedWord := by
  intro s nbits w i h
  obtain ⟨hencode, -, -⟩ := encodeOfDecode _ i (decode_of_decodeTableWord h)
  obtain ⟨cmd, hcmd, hinstr⟩ := command_of_encode hencode
  rw [withFetchWord_of_command h hcmd, step_accepted (cmd := cmd) (rest := s.port) rfl rfl, hinstr]
  rfl

end Sys2Proof
end

section
/-!
The frame each drawing command sends, from its pseudocode (42_command_encoders R132 to R136), and that it is the
encoder's frame of the command as sent (30_encoding R60).
-/

namespace Sys2Proof.Machine

/-! ### The frame of each drawing command -/

/-- STATUS after WS on a body being built: TRUNC is set when the text is cut (R95). -/
def statusAfterText (s : State) (body : List Byte) (text : TextSource) : Byte :=
  if remaining s.cfg (leadLen s.cfg.lead + body.length - 1) < (textOnWire text).length then
    s.status ||| truncBit
  else s.status

/-- WS and XMIT on a body being built: a text that fits is appended and the frame is sent. -/
theorem textTail_go {s : State} {body : List Byte} {text : TextSource} (hb : body ≠ [])
    (hl : leadHeld s = true)
    (h : leadLen s.cfg.lead + body.length + (textCopied s body text).length ≤ s.cfg.cap) :
    runAll [ws text, xmit] (withBody s body) =
      .go (sent (s.setStatus (statusAfterText s body text)) (body ++ textCopied s body text)) := by
  have hws : ws text (withBody s body) = .go (withBody (s.setStatus (statusAfterText s body text))
    (body ++ textCopied s body text)) := ws_withBody hb text h
  have hfit : leadLen s.cfg.lead + (body ++ textCopied s body text).length ≤ s.cfg.cap := by
    rwa [List.length_append, ← Nat.add_assoc]
  rw [runAll_cons, hws, Flow.bind_go, runAll_cons,
    xmit_sent (s := s.setStatus (statusAfterText s body text)) (by simp [hb]) hfit hl]
  rfl

/-- With STRING_BOUND = Safe, BEGIN, writers, WS and XMIT, the shape of DRAW_TEXT, send one frame: the bytes
WS copies fit (R98). -/
theorem runCommand_textFrame {s : State} (hr : Ready s) (hsafe : s.cfg.stringBound = .safe) (op : Byte)
    (bss : List (List Byte)) (text : TextSource) (hlen : bss.flatten.length ≤ 15) :
    ∃ t, runCommand (runAll (beginFrame op :: (bss.map appendBytes ++ [ws text, xmit]))) s = .next t ∧
      SendsFrame s t (op :: bss.flatten ++ textCopied s (op :: bss.flatten) text)
        (statusAfterText (begun s) (op :: bss.flatten) text) := by
  have hcap := cap_of_valid hr.valid
  have hne : op :: bss.flatten ≠ [] := List.cons_ne_nil _ _
  have hbody : leadLen s.cfg.lead + (op :: bss.flatten).length ≤ s.cfg.cap := by
    rw [List.length_cons]
    omega
  have hfit : leadLen s.cfg.lead + (op :: bss.flatten).length +
      (textCopied s (op :: bss.flatten) text).length ≤ s.cfg.cap := by
    by_contra hover
    have := literal_of_text_overruns hne hbody (Nat.lt_of_not_le hover)
    simp [hsafe] at this
  have hbuild := runAll_build (s := begun s) op bss [ws text, xmit]
    (show leadLen s.cfg.lead + 1 + bss.flatten.length ≤ s.cfg.cap by omega)
  have htail := textTail_go (s := begun s) hne hr.lead hfit
  exact ⟨_, runCommand_go (ready_accepts hr) (hbuild.trans htail), sendsFrame_sent hr.idle _ _⟩

/-- DRAW_TEXT sends its frame (R132). -/
theorem exec_drawText_sendsFrame {s : State} (hr : Ready s) (hsafe : s.cfg.stringBound = .safe)
    (wa bs : Bool) (size : Byte) (fg bg x y : Word16) (text : TextSource) :
    ∃ t, exec (.drawText wa bs size fg bg x y text) s = .next t ∧
      SendsFrame s t
        (0x11#8 :: [be1 (textFlags wa bs size), be2 fg, be2 bg, be2 x, be2 y].flatten ++
          (textOnWire text).take (s.cfg.cap - (10 + leadLen s.cfg.lead)))
        (if s.cfg.cap - (10 + leadLen s.cfg.lead) < (textOnWire text).length then truncBit else 0#8) := by
  obtain ⟨t, ht, hsends⟩ := runCommand_textFrame hr hsafe 0x11#8
    [be1 (textFlags wa bs size), be2 fg, be2 bg, be2 x, be2 y] text (by simp [be1, be2])
  have hroom : remaining s.cfg (leadLen s.cfg.lead + 10 - 1) = s.cfg.cap - (10 + leadLen s.cfg.lead) := by
    rw [remaining, hsafe]
    show s.cfg.cap - 1 - (leadLen s.cfg.lead + 10 - 1) = _
    omega
  rw [statusAfterText, begun_status, BitVec.zero_or] at hsends
  rw [← hroom]
  exact ⟨t, ht, hsends⟩

/-- DRAW_FLOAT sends its frame (R133). -/
theorem exec_drawFloat_sendsFrame {s : State} (hr : Ready s) (bs zf zm : Bool) (size : Byte)
    (fg bg : Word16) (inum fnum : Byte) (x y : Word16) (value : Int32) :
    ∃ t, exec (.drawFloat bs zf zm size fg bg inum fnum x y value) s = .next t ∧
      SendsFrame s t (0x14#8 :: [be1 (floatFlags bs zf zm size), be2 fg, be2 bg, be1 inum, be1 fnum,
        be2 x, be2 y, be4 (twos32 value)].flatten) 0#8 :=
  runCommand_frame hr _ [_, _, _, _, _, _, _, _] _ (by simp [be1, be2, be4]) rfl

/-- SHOW_ICON and DIRECT_ICON send a short frame with both coordinates clamped (R131). -/
theorem runCommand_clamped {s : State} (hr : Ready s) (x y : Word16) (op : Byte)
    (bss : Word16 → Word16 → List (List Byte)) (hlen : ∀ x' y', (bss x' y').flatten.length ≤ 15) :
    ∃ t, runCommand (withClamped x y fun x' y' =>
        beginFrame op :: ((bss x' y').map appendBytes ++ [xmit])) s = .next t ∧
      SendsFrame s t (op :: (bss (clampedX s.cfg x) (clampedY s.cfg y)).flatten)
        ((if s.cfg.w ≤ x.toNat then clampXBit else 0#8) |||
          (if s.cfg.h ≤ y.toNat then clampYBit else 0#8)) :=
  runCommand_frame hr op _ _ (hlen _ _) (congrArg (runAll _) (markClamps_begun hr.valid x y))

/-- SHOW_ICON sends its frame (R134). -/
theorem exec_showIcon_sendsFrame {s : State} (hr : Ready s) (lib pic : Byte) (x y : Word16) :
    ∃ t, exec (.showIcon lib pic x y) s = .next t ∧
      SendsFrame s t (0x23#8 :: [be2 (clampedX s.cfg x), be2 (clampedY s.cfg y), be1 (forceTop lib),
        be1 pic].flatten)
        ((if s.cfg.w ≤ x.toNat then clampXBit else 0#8) |||
          (if s.cfg.h ≤ y.toNat then clampYBit else 0#8)) :=
  runCommand_clamped hr x y _ (fun x' y' => [be2 x', be2 y', be1 (forceTop lib), be1 pic])
    fun _ _ => by simp [be1, be2]

/-- DIRECT_ICON sends its frame (R135). -/
theorem exec_directIcon_sendsFrame {s : State} (hr : Ready s) (x y addr : Word16) :
    ∃ t, exec (.directIcon x y addr) s = .next t ∧
      SendsFrame s t (0x24#8 :: [be2 (clampedX s.cfg x), be2 (clampedY s.cfg y), be1 0x80#8,
        be2 addr].flatten)
        ((if s.cfg.w ≤ x.toNat then clampXBit else 0#8) |||
          (if s.cfg.h ≤ y.toNat then clampYBit else 0#8)) :=
  runCommand_clamped hr x y _ (fun x' y' => [be2 x', be2 y', be1 0x80#8, be2 addr])
    fun _ _ => by simp [be1, be2]

/-- AREA_COPY sends its frame (R136). -/
theorem exec_areaCopy_sendsFrame {s : State} (hr : Ready s) (cache : Byte) (xs ys xe ye x y : Word16) :
    ∃ t, exec (.areaCopy cache xs ys xe ye x y) s = .next t ∧
      SendsFrame s t (0x27#8 :: [be1 (forceTop cache), be2 xs, be2 ys, be2 xe, be2 ye, be2 x,
        be2 y].flatten) 0#8 :=
  runCommand_frame hr _ [_, _, _, _, _, _, _] _ (by simp [be1, be2]) rfl

/-! ### The field bytes of the pseudocode and of the encoder -/

/-- R69 computed by shifts is R69 laid out bit by bit. -/
theorem textFlags_eq_append (wa bs : Bool) (size : Byte) : textFlags wa bs size =
    BitVec.ofBool wa ++ BitVec.ofBool bs ++ 0#2 ++ size.extractLsb' 0 4 := by
  have key : ∀ (a b : Bool) (n : Byte), textFlags a b n =
      BitVec.ofBool a ++ BitVec.ofBool b ++ 0#2 ++ n.extractLsb' 0 4 := by decide +kernel
  exact key wa bs size

/-- R70 computed by shifts is R70 laid out bit by bit. -/
theorem floatFlags_eq_append (bs zf zm : Bool) (size : Byte) : floatFlags bs zf zm size =
    BitVec.ofBool bs ++ 0#1 ++ BitVec.ofBool zf ++ BitVec.ofBool zm ++ size.extractLsb' 0 4 := by
  have key : ∀ (a b c : Bool) (n : Byte), floatFlags a b c n =
      BitVec.ofBool a ++ 0#1 ++ BitVec.ofBool b ++ BitVec.ofBool c ++ n.extractLsb' 0 4 := by
    decide +kernel
  exact key bs zf zm size

/-- Forcing the top bit keeps the low seven bits and no other (R71). -/
theorem forceTop_eq_append (id : Byte) : forceTop id = 1#1 ++ id.extractLsb' 0 7 := by
  have key : ∀ n : Byte, forceTop n = 1#1 ++ n.extractLsb' 0 7 := by decide +kernel
  exact key id

/-- The pattern `twos_32` writes is the bits of the signed value (R68). -/
theorem twos32_eq_toBitVec (v : Int32) : twos32 v = v.toBitVec := BitVec.ofInt_toInt

end Sys2Proof.Machine

namespace Sys2Proof
open Sys2Proof.Machine

/-! ### Whole frames -/

/-- Reading a whole frame strips the lead byte and the terminator (R60). -/
theorem decodeFrame_wrapped (k : Cfg) (bytes : List Byte) :
    decodeFrame k (leadBytes k.lead ++ bytes ++ termBytes k.term) = decode bytes := by
  have hterm : (termBytes k.term).length = 4 := rfl
  simp [decodeFrame, hterm]

/-- Text cut for the wire has no 0x00 to be cut at again (R96). -/
theorem textOnWire_take (text : TextSource) (n : Nat) :
    textOnWire (.runtime ((textOnWire text).take n)) = (textOnWire text).take n :=
  textOnWire_runtime fun h => zero_not_mem_textOnWire text (List.mem_of_mem_take h)

/-- A drawing command sends the body the encoder gives for the command as sent (R131 to R136). -/
theorem exec_drawing_sendsEncoding {s : State} {i : Instr} (hi : isDrawing i = true) (hr : Ready s)
    (hsafe : s.cfg.stringBound = .safe) :
    ∃ t body v, exec i s = .next t ∧ SendsFrame s t body v ∧ encode (asSent s.cfg i) = some body := by
  cases i with
  | drawText wa bs size fg bg x y text =>
    obtain ⟨t, ht, hsends⟩ := exec_drawText_sendsFrame hr hsafe wa bs size fg bg x y text
    refine ⟨t, _, _, ht, hsends, ?_⟩
    rw [asSent, encode, textOnWire_take, textFlags_eq_append]
    simp [be1]
  | drawFloat bs zf zm size fg bg inum fnum x y value =>
    obtain ⟨t, ht, hsends⟩ := exec_drawFloat_sendsFrame hr bs zf zm size fg bg inum fnum x y value
    refine ⟨t, _, _, ht, hsends, ?_⟩
    rw [floatFlags_eq_append, twos32_eq_toBitVec]
    rfl
  | showIcon lib pic x y =>
    obtain ⟨t, ht, hsends⟩ := exec_showIcon_sendsFrame hr lib pic x y
    refine ⟨t, _, _, ht, hsends, ?_⟩
    rw [forceTop_eq_append, clampedX_eq hr.valid, clampedY_eq hr.valid]
    rfl
  | directIcon x y addr =>
    obtain ⟨t, ht, hsends⟩ := exec_directIcon_sendsFrame hr x y addr
    refine ⟨t, _, _, ht, hsends, ?_⟩
    rw [clampedX_eq hr.valid, clampedY_eq hr.valid]
    rfl
  | areaCopy cache xs ys xe ye x y =>
    obtain ⟨t, ht, hsends⟩ := exec_areaCopy_sendsFrame hr cache xs ys xe ye x y
    refine ⟨t, _, _, ht, hsends, ?_⟩
    rw [forceTop_eq_append]
    rfl
  | _ => cases hi

/-- Settles O44: the frame sent is the encoder's, and reading it is O42 under the lead byte and terminator. -/
theorem drawingCommandsSendTheirEncoding : Obligations.DrawingCommandsSendTheirEncoding := by
  intro s i hi hr hsafe
  obtain ⟨t, body, v, hexec, ⟨hform, -, -⟩, hencode⟩ := exec_drawing_sendsEncoding hi hr hsafe
  refine ⟨t, leadBytes s.cfg.lead ++ body ++ termBytes s.cfg.term, hexec, ?_, congrArg State.trace hform, ?_⟩
  · rw [encodeFrame, hencode, Option.map_some]
  · rw [decodeFrame_wrapped, decodeOfEncode _ _ hencode]

end Sys2Proof
end

section
/-!
The primitive writers run on their own (40_primitive_writers): PUTBYTE, BEGIN, the integer writers as one append,
and the string writer under both bounds.
-/

namespace Sys2Proof.Machine

/-- An unmarked block runs an internal operation (R28). -/
theorem stopped_of_unmarked {s : State} (hf : s.fault = none) (hr : s.refused = none) :
    s.stopped = false := (State.stopped_eq_false_iff s).2 ⟨hf, hr⟩

/-! ### Appending bytes -/

/-- Bytes written at `c + 1` up, the cursor moved by their number. -/
theorem appendsBytes_writeAll (s : State) (bs : List Byte) :
    AppendsBytes s ((s.setFb (s.fb.writeAll (s.c + 1) bs)).setC (s.c + bs.length)) bs :=
  ⟨rfl, fun k hk => Memory.read?_writeAll_inside _ _ k bs hk,
    fun _ hj => Memory.read?_writeAll_outside _ _ (by omega)⟩

/-- Bytes written at `c + 1` up as far as they lie below CAP, and the overrun recorded (R171). -/
theorem overrunsBy_writeAll (s : State) (bs : List Byte) :
    OverrunsBy s ((s.setFb (s.fb.writeAll (s.c + 1) (bs.take (s.cfg.cap - (s.c + 1))))).setFault
      (some (.overrun (max (s.c + 1) s.cfg.cap)))) bs := by
  have hlen : (bs.take (s.cfg.cap - (s.c + 1))).length = min (s.cfg.cap - (s.c + 1)) bs.length :=
    List.length_take
  refine ⟨rfl, fun k hk hcap => ?_, fun j hj => Memory.read?_writeAll_outside _ _ (by omega)⟩
  rw [State.setFault_fb, State.setFb_fb, Memory.read?_writeAll_inside _ _ k _ (by omega), List.getElem_take]

/-- A writer whose bytes fit below CAP appends them (R92 to R94). -/
theorem runInternal_appendBytes_fits {s : State} {bs : List Byte} (hs : s.stopped = false)
    (h : s.c + bs.length < s.cfg.cap) :
    ∃ t, runInternal (appendBytes bs) s = .next t ∧ AppendsBytes s t bs :=
  ⟨_, runInternal_go hs (appendBytes_go (by omega)), appendsBytes_writeAll s bs⟩

/-- A writer whose bytes reach CAP records the overrun (R92 to R94). -/
theorem runInternal_appendBytes_overruns {s : State} {bs : List Byte} (hs : s.stopped = false)
    (hb : bs ≠ []) (h : s.cfg.cap ≤ s.c + bs.length) :
    ∃ t, runInternal (appendBytes bs) s = .next t ∧ OverrunsBy s t bs :=
  ⟨_, runInternal_stop hs (appendBytes_stop hb (by omega)), overrunsBy_writeAll s bs⟩

/-- `BE_2` read as numbers, each reduced to a byte (R42). -/
theorem be2_eq_ofNat (v : Word16) : be2 v = [BitVec.ofNat 8 (v.toNat / 256), BitVec.ofNat 8 v.toNat] := by
  simp [be2, extractByte_eq_ofNat_div]

/-- `BE_4` read as numbers, each reduced to a byte (R42). -/
theorem be4_eq_ofNat (v : Word32) : be4 v = [BitVec.ofNat 8 (v.toNat / 16777216),
    BitVec.ofNat 8 (v.toNat / 65536), BitVec.ofNat 8 (v.toNat / 256), BitVec.ofNat 8 v.toNat] := by
  simp [be4, extractByte_eq_ofNat_div]

/-! ### BEGIN -/

/-- BEGIN leaves the cursor on the opcode, at the lead position's end (R91). -/
theorem exec_beginFrame_writes {s : State} (hs : s.stopped = false) (op : Byte)
    (h : leadLen s.cfg.lead + 1 ≤ s.cfg.cap) :
    ∃ t, exec (.beginFrame op) s = .next t ∧ t = { s with fb := t.fb, c := leadLen s.cfg.lead } ∧
      t.fb.read? (leadLen s.cfg.lead) = some op ∧
      ∀ j, j ≠ leadLen s.cfg.lead → t.fb.read? j = s.fb.read? j :=
  ⟨_, runInternal_go hs (beginFrame_go op h), rfl, Memory.read?_write_same _ _ _,
    fun _ hj => Memory.read?_write_other _ _ hj.symm⟩

/-! ### The end of a text -/

/-- The text length is the index of the first 0x00 (R96). -/
theorem textLen_eq_findIdx (bytes : List Byte) : textLen bytes = bytes.findIdx (· == 0#8) := by
  induction bytes with
  | nil => rfl
  | cons b bs ih =>
    rw [textLen, List.findIdx_cons, ih, Bool.cond_eq_ite]
    simp only [beq_iff_eq]

/-- A text of no bytes writes nothing (R95). -/
theorem exec_ws_empty {src : TextSource} (h : textLen (sourceBytes src) = 0) (s : State) :
    exec (.ws src) s = .next s := by
  have hgo : ws src s = .go s := by simp [ws, h]
  cases hs : s.stopped with
  | true => exact runInternal_stopped _ hs
  | false => exact runInternal_go hs hgo

/-! ### The string writer -/

/-- The remaining capacity of both bounds (R95, C1). -/
theorem remaining_eq (k : Cfg) (c : Nat) :
    remaining k c = if k.stringBound = .safe then k.cap - 1 - c else k.cap - c := by
  cases h : k.stringBound <;> simp [remaining, h]

/-- An append of nothing goes on from any cursor, and one that fits goes on too. -/
theorem appendBytes_go_of_nil_or_fits {s : State} {bs : List Byte}
    (h : bs = [] ∨ s.c + bs.length < s.cfg.cap) :
    appendBytes bs s = .go ((s.setFb (s.fb.writeAll (s.c + 1) bs)).setC (s.c + bs.length)) := by
  rcases h with rfl | h
  · rfl
  · exact appendBytes_go (by omega)

/-- WS copies the bytes that fit and sets TRUNC when the text was cut (R95). -/
theorem exec_ws_copies {s : State} {src : TextSource} (hs : s.stopped = false)
    (h : (textOnWire src).take (remaining s.cfg s.c) = [] ∨
      s.c + ((textOnWire src).take (remaining s.cfg s.c)).length < s.cfg.cap) :
    ∃ t, exec (.ws src) s = .next t ∧
      AppendsBytes s { t with status := s.status } ((textOnWire src).take (remaining s.cfg s.c)) ∧
      t.status = (if remaining s.cfg s.c < (textOnWire src).length then s.status ||| 1#8 else s.status) := by
  have hgo := ws_eq src s
  rw [appendBytes_go_of_nil_or_fits h, Flow.bind_go] at hgo
  refine ⟨_, runInternal_go hs hgo, ?_⟩
  split
  · exact ⟨appendsBytes_writeAll s _, rfl⟩
  · exact ⟨appendsBytes_writeAll s _, rfl⟩

/-- WS whose bytes reach CAP records the overrun of its append and leaves STATUS (R95). -/
theorem exec_ws_overruns {s : State} {src : TextSource} (hs : s.stopped = false)
    (hne : (textOnWire src).take (remaining s.cfg s.c) ≠ [])
    (h : s.cfg.cap ≤ s.c + ((textOnWire src).take (remaining s.cfg s.c)).length) :
    ∃ t, exec (.ws src) s = .next t ∧ OverrunsBy s t ((textOnWire src).take (remaining s.cfg s.c)) := by
  have hstop := ws_eq src s
  rw [appendBytes_stop hne (by omega), Flow.bind_stop] at hstop
  exact ⟨_, runInternal_stop hs hstop, overrunsBy_writeAll s _⟩

end Sys2Proof.Machine

namespace Sys2Proof
open Sys2Proof.Machine

/-- Settles O8: the two branches of PutByte. -/
theorem putByteWritesOneCell : Obligations.PutByteWritesOneCell := by
  intro s i v hf hr
  have hs := stopped_of_unmarked hf hr
  refine ⟨fun hin => ?_, fun hout => runInternal_stop hs (putByte_stop v hout)⟩
  exact ⟨_, runInternal_go hs (putByte_go v hin), rfl, Memory.read?_write_same _ i v,
    fun j hj => Memory.read?_write_other _ v hj.symm⟩

/-- Settles O9: BEGIN at the lead position's end, for each LEAD. -/
theorem beginStartsAFrame : Obligations.BeginStartsAFrame := by
  intro s op hf hr
  have hbegin := exec_beginFrame_writes (stopped_of_unmarked hf hr) op
  refine ⟨fun hlead hcap => ?_, fun h hlead hcap => ?_⟩
  · rw [hlead] at hbegin
    exact hbegin hcap
  · rw [hlead] at hbegin
    exact hbegin hcap

/-- Settles O10: WB is an append of one byte. -/
theorem wbAppendsOneByte : Obligations.WbAppendsOneByte := fun _ v hf hr =>
  have hs := stopped_of_unmarked hf hr
  ⟨runInternal_appendBytes_fits (bs := [v]) hs,
    runInternal_appendBytes_overruns (bs := [v]) hs (List.cons_ne_nil _ _)⟩

/-- Settles O11: WW is an append of `BE_2`. -/
theorem wwAppendsTwoBytes : Obligations.WwAppendsTwoBytes := by
  intro s v hf hr
  have hs := stopped_of_unmarked hf hr
  rw [← be2_eq_ofNat]
  exact ⟨runInternal_appendBytes_fits (bs := be2 v) hs,
    runInternal_appendBytes_overruns (bs := be2 v) hs (List.cons_ne_nil _ _)⟩

/-- Settles O12: WL is an append of `BE_4`. -/
theorem wlAppendsFourBytes : Obligations.WlAppendsFourBytes := by
  intro s v hf hr
  have hs := stopped_of_unmarked hf hr
  rw [← be4_eq_ofNat]
  exact ⟨runInternal_appendBytes_fits (bs := be4 v) hs,
    runInternal_appendBytes_overruns (bs := be4 v) hs (List.cons_ne_nil _ _)⟩

/-- Settles O13: the text length is a first index, and WS reads the bytes of a source whatever its kind. -/
theorem textEndsAtTheFirstNul : Obligations.TextEndsAtTheFirstNul := by
  intro bytes
  refine ⟨textLen_le bytes, fun k hk hlt => ?_, fun hlt => ?_, fun _ => rfl,
    fun s hzero => exec_ws_empty (src := .runtime bytes) hzero s, exec_ws_empty rfl⟩
  · rw [textLen_eq_findIdx] at hlt
    simpa using List.not_of_lt_findIdx hlt
  · simp only [textLen_eq_findIdx] at hlt ⊢
    simpa using List.findIdx_getElem (w := hlt)

/-- Settles O14: under Safe the bytes WS copies always fit, and no instruction writes past CAP. -/
theorem stringWriterStaysInTheBuffer : Obligations.StringWriterStaysInTheBuffer := by
  intro s src hf hr hsafe
  have hroom : remaining s.cfg s.c = s.cfg.cap - 1 - s.c := by rw [remaining, hsafe]
  have hlen := List.length_take_le (s.cfg.cap - 1 - s.c) (textOnWire src)
  have hfit : (textOnWire src).take (s.cfg.cap - 1 - s.c) = [] ∨
      s.c + ((textOnWire src).take (s.cfg.cap - 1 - s.c)).length < s.cfg.cap := by
    rw [← List.length_eq_zero_iff]
    omega
  obtain ⟨t, hexec, happ, hstatus⟩ := exec_ws_copies (stopped_of_unmarked hf hr) (hroom ▸ hfit)
  rw [hroom] at happ hstatus
  refine ⟨t, hexec, happ, hstatus, fun hc => ?_, (exec_touches hexec).1.keeps.outside⟩
  have hcursor : t.c = s.c + ((textOnWire src).take (s.cfg.cap - 1 - s.c)).length := congrArg State.c happ.1
  omega

/-- Settles O15: the copied bytes fit or, under Literal only, end exactly at CAP. -/
theorem stringWriterFollowsItsRule : Obligations.StringWriterFollowsItsRule := by
  intro s src n hf hr hn
  have hs := stopped_of_unmarked hf hr
  rw [← remaining_eq] at hn
  have htake : (textOnWire src).take n = (textOnWire src).take (remaining s.cfg s.c) := by
    rw [hn, ← List.take_eq_take_min]
  have hlen : ((textOnWire src).take n).length = n := by
    rw [List.length_take]
    omega
  refine ⟨fun hfit => ?_, fun hne hover => ?_⟩
  · have hcut : remaining s.cfg s.c < (textOnWire src).length ↔ n < (textOnWire src).length := by omega
    have hcopy := exec_ws_copies (src := src) hs (by rwa [← htake, ← List.length_eq_zero_iff, hlen])
    simp only [← htake, hcut] at hcopy
    exact hcopy
  · have hroom : s.cfg.stringBound = .literal ∧ remaining s.cfg s.c = s.cfg.cap - s.c := by
      cases hbound : s.cfg.stringBound with
      | literal => exact ⟨rfl, by rw [remaining, hbound]⟩
      | safe =>
        simp only [remaining, hbound] at hn
        omega
    obtain ⟨hliteral, hroom⟩ := hroom
    have hend : s.c + n = s.cfg.cap := by omega
    obtain ⟨t, hexec, hform, hread, hout⟩ := exec_ws_overruns (src := src) hs
      (by rw [← htake]; exact List.ne_nil_of_length_pos (by omega)) (by rwa [← htake, hlen])
    rw [Nat.max_eq_right (by omega)] at hform
    refine ⟨hliteral, hend, t, hexec, hform, fun k hk hcap => ?_, hout⟩
    rw [hread k (by rw [← htake, hlen]; omega) hcap, List.getElem_take]

end Sys2Proof
end

section
/-!
With a valid configuration and STRING_BOUND = Safe no command records an overrun, whatever FB and the cursor hold:
BEGIN sets the cursor, and the bytes of every frame fit (40_primitive_writers R97).
-/

namespace Sys2Proof.Machine

/-- The flow ends in a state without a fault mark. -/
def Flow.Unfaulted : Flow → Prop
  | .go t => t.fault = none
  | .stop t => t.fault = none
  | .bad _ => False

/-- A command whose body ends without a fault mark answers a next state without one; held, it changes nothing. -/
theorem runCommand_unfaulted {body : State → Flow} {s : State} (hf : s.fault = none)
    (hb : (body (begun s)).Unfaulted) : ∃ t, runCommand body s = .next t ∧ t.fault = none := by
  cases ha : s.accepts with
  | false => exact ⟨s, runCommand_held body ha, hf⟩
  | true =>
    cases hflow : body (begun s) with
    | go t => exact ⟨_, runCommand_go ha hflow, by rwa [hflow] at hb⟩
    | stop t => exact ⟨t, runCommand_stop ha hflow, by rwa [hflow] at hb⟩
    | bad e => rw [hflow] at hb; exact hb.elim

/-! ### Frames -/

/-- XMIT of a body inside the buffer sends whatever FB[0] holds. -/
theorem runAll_xmit_unfaulted {s : State} {body : List Byte} (hf : s.fault = none) (hb : body ≠ [])
    (h : leadLen s.cfg.lead + body.length ≤ s.cfg.cap) :
    (runAll [xmit] (withBody s body)).Unfaulted := by
  have hpos := List.length_pos_iff.2 hb
  rw [runAll_cons, xmit_go (show leadLen s.cfg.lead + body.length - 1 < s.cfg.cap by omega)]
  exact hf

/-- A frame of at most 15 bytes after its opcode fits (R13). -/
theorem runAll_frame_unfaulted {s : State} (hv : cfgValid s.cfg = true) (hf : s.fault = none) (op : Byte)
    (bss : List (List Byte)) (hlen : bss.flatten.length ≤ 15) :
    (runAll (beginFrame op :: (bss.map appendBytes ++ [xmit])) s).Unfaulted := by
  have hcap := cap_of_valid hv
  rw [runAll_build op bss _ (by omega)]
  exact runAll_xmit_unfaulted hf (List.cons_ne_nil _ _) (by rw [List.length_cons]; omega)

/-- The same with WS before XMIT: under Safe the bytes WS copies fit too (R98). -/
theorem runAll_textFrame_unfaulted {s : State} (hv : cfgValid s.cfg = true)
    (hsafe : s.cfg.stringBound = .safe) (hf : s.fault = none) (op : Byte) (bss : List (List Byte))
    (text : TextSource) (hlen : bss.flatten.length ≤ 15) :
    (runAll (beginFrame op :: (bss.map appendBytes ++ [ws text, xmit])) s).Unfaulted := by
  have hcap := cap_of_valid hv
  have hne : op :: bss.flatten ≠ [] := List.cons_ne_nil _ _
  have hbody : leadLen s.cfg.lead + (op :: bss.flatten).length ≤ s.cfg.cap := by
    rw [List.length_cons]
    omega
  have hfit : leadLen s.cfg.lead + (op :: bss.flatten).length +
      (textCopied s (op :: bss.flatten) text).length ≤ s.cfg.cap := by
    by_contra hover
    have := literal_of_text_overruns hne hbody (Nat.lt_of_not_le hover)
    simp [hsafe] at this
  rw [runAll_build op bss _ (by omega), runAll_cons, ws_withBody hne text hfit, Flow.bind_go]
  refine runAll_xmit_unfaulted hf (List.append_ne_nil_of_left_ne_nil hne _) ?_
  rwa [List.length_append, ← Nat.add_assoc]

/-- SHOW_ICON and DIRECT_ICON: the clamps set no mark, and a short frame fits. -/
theorem withClamped_unfaulted {s : State} (hv : cfgValid s.cfg = true) (hf : s.fault = none) (x y : Word16)
    (op : Byte) (bss : Word16 → Word16 → List (List Byte)) (hlen : ∀ x' y', (bss x' y').flatten.length ≤ 15) :
    (withClamped x y (fun x' y' => beginFrame op :: ((bss x' y').map appendBytes ++ [xmit]))
      (begun s)).Unfaulted := by
  rw [withClamped, markClamps_begun hv]
  exact runAll_frame_unfaulted (s := (begun s).setStatus _) hv hf op _ (hlen _ _)

/-! ### MEM_WRITE -/

/-- A statement that goes on hands its state to the rest (R17). -/
theorem runAll_go {f : State → Flow} {fs : List (State → Flow)} {s t : State} (h : f s = .go t) :
    runAll (f :: fs) s = runAll fs t := by
  rw [runAll_cons, h, Flow.bind_go]

/-- One iteration of the chunk loop goes on whatever FB[0] holds, and advances SL as `chunkSent` does. -/
theorem sendChunk_goes {data : List Byte} {s : State} (hcap : leadLen s.cfg.lead + 4 ≤ s.cfg.cap)
    (hrem : s.sl.idx * s.cfg.chunkMax + s.sl.rem ≤ data.length) :
    ∃ t, sendChunk data s = .go t ∧ t.cfg = s.cfg ∧ t.fault = s.fault ∧ t.sl = (chunkSent data s).sl := by
  have hbegin : beginFrame 0x31#8 (slicerChunk s) = .go (withBody (slicerChunk s) [0x31#8]) :=
    beginFrame_go _ (show leadLen s.cfg.lead + 1 ≤ s.cfg.cap by omega)
  have htype : wb s.sl.type (withBody (slicerChunk s) [0x31#8]) =
      .go (withBody (slicerChunk s) [0x31#8, s.sl.type]) :=
    appendBytes_withBody (List.cons_ne_nil _ _) (show leadLen s.cfg.lead + 1 + 1 ≤ s.cfg.cap by omega)
  have haddr : ww (chunkAddr s) (withBody (slicerChunk s) [0x31#8, s.sl.type]) =
      .go (withBody (slicerChunk s) (slHeader s)) :=
    appendBytes_withBody (List.cons_ne_nil _ _) (show leadLen s.cfg.lead + 2 + 2 ≤ s.cfg.cap by omega)
  have hcursor : (withBody (slicerChunk s) (slHeader s)).c < s.cfg.cap :=
    show leadLen s.cfg.lead + 4 - 1 < s.cfg.cap by omega
  have hpayload : min s.cfg.chunkMax s.sl.rem ≤ data.length - s.sl.idx * s.cfg.chunkMax := by omega
  exact ⟨_, (runAll_go rfl).trans <| (runAll_go hbegin).trans <| (runAll_go htype).trans <|
    (runAll_go haddr).trans <| (runAll_go (sendBody_go hcursor)).trans <|
    (runAll_go (rawOut_go _ hpayload)).trans <| (runAll_go rfl).trans (runAll_go rfl), rfl, rfl, rfl⟩

/-- The chunk loop sends the chunks left and sets no mark. -/
theorem chunkLoop_unfaulted (data : List Byte) (fuel : Nat) (s : State) (hC : 1 ≤ s.cfg.chunkMax)
    (hcap : leadLen s.cfg.lead + 4 ≤ s.cfg.cap) (hf : s.fault = none)
    (hrem : s.sl.rem = data.length - s.sl.idx * s.cfg.chunkMax) (hfuel : s.sl.rem ≤ fuel) :
    (chunkLoop data fuel s).Unfaulted := by
  induction fuel generalizing s with
  | zero =>
    rw [chunkLoop, if_pos (Nat.le_zero.1 hfuel)]
    exact hf
  | succ fuel ih =>
    by_cases hdone : s.sl.rem = 0
    · rw [chunkLoop, if_pos hdone]
      exact hf
    · obtain ⟨t, hgo, hcfg, hfault, hsl⟩ := sendChunk_goes (data := data) hcap (by omega)
      have hnext : (s.sl.idx + 1) * s.cfg.chunkMax = s.sl.idx * s.cfg.chunkMax + s.cfg.chunkMax :=
        Nat.succ_mul _ _
      rw [chunkLoop, if_neg hdone, hgo, Flow.bind_go]
      rw [chunkSent_sl] at hsl
      refine ih t (hcfg ▸ hC) (hcfg ▸ hcap) (hfault.trans hf) ?_ ?_
      · simp only [hsl, hcfg, hnext]
        omega
      · simp only [hsl]
        omega

/-- MEM_WRITE is refused or sends its sub-frames; neither sets a fault mark (R150, R151). -/
theorem memWriteRule_unfaulted {s : State} (hv : cfgValid s.cfg = true) (hf : s.fault = none) (type : Byte)
    (base : Word16) (data : List Byte) : (memWriteRule type base data s).Unfaulted := by
  have hcap := cap_of_valid hv
  by_cases htype : type = 0x5A#8
  · subst htype
    by_cases hlong : s.cfg.lMax < data.length
    · rw [memWriteRule_tooLong hlong]
      exact hf
    · rw [memWriteRule_admitted (Nat.not_lt.1 hlong)]
      exact chunkLoop_unfaulted data _ (slicerEntry 0x5A#8 base data.length s) (chunkMax_of_valid hv)
        (show leadLen s.cfg.lead + 4 ≤ s.cfg.cap by omega) hf (by simp [slicerEntry]) le_rfl
  · rw [memWriteRule_wrongType htype]
    exact hf

end Sys2Proof.Machine

namespace Sys2Proof
open Sys2Proof.Machine

/-- Settles O32: each command is held, refused, or builds and sends frames that fit. -/
theorem noCommandOverruns : Obligations.NoCommandOverruns := by
  intro s i hi hv hsafe hf
  cases i with
  | drawText wa bs size fg bg x y text =>
    exact runCommand_unfaulted hf (runAll_textFrame_unfaulted (s := begun s) hv hsafe hf 0x11#8
      [be1 (textFlags wa bs size), be2 fg, be2 bg, be2 x, be2 y] text (by simp [be1, be2]))
  | drawFloat bs zf zm size fg bg inum fnum x y value =>
    exact runCommand_unfaulted hf (runAll_frame_unfaulted (s := begun s) hv hf 0x14#8
      [be1 (floatFlags bs zf zm size), be2 fg, be2 bg, be1 inum, be1 fnum, be2 x, be2 y,
        be4 (twos32 value)] (by simp [be1, be2, be4]))
  | showIcon lib pic x y =>
    exact runCommand_unfaulted hf (withClamped_unfaulted hv hf x y 0x23#8
      (fun x' y' => [be2 x', be2 y', be1 (forceTop lib), be1 pic]) fun _ _ => by simp [be1, be2])
  | directIcon x y addr =>
    exact runCommand_unfaulted hf (withClamped_unfaulted hv hf x y 0x24#8
      (fun x' y' => [be2 x', be2 y', be1 0x80#8, be2 addr]) fun _ _ => by simp [be1, be2])
  | areaCopy cache xs ys xe ye x y =>
    exact runCommand_unfaulted hf (runAll_frame_unfaulted (s := begun s) hv hf 0x27#8
      [be1 (forceTop cache), be2 xs, be2 ys, be2 xe, be2 ye, be2 x, be2 y] (by simp [be1, be2]))
  | memWrite type base data =>
    exact runCommand_unfaulted hf (memWriteRule_unfaulted (s := begun s) hv hf type base data)
  | memWriteFlash base data =>
    exact runCommand_unfaulted hf (memWriteRule_unfaulted (s := begun s) hv hf 0xA5#8 base data)
  | _ => cases hi

end Sys2Proof
end

section
/-!
The frame transmitter run on its own (41_frame_transmitter): where the bytes and the waits stand among the events
of SENDBODY, SENDTAIL, XMIT and RAWOUT.
-/

namespace Sys2Proof.Machine

/-! ### Paced bytes, event by event -/

/-- The even events of paced bytes are the bytes (R111). -/
theorem paced_getElem?_even (us : Nat) (bs : List Byte) (k : Nat) :
    (paced us bs)[2 * k]? = bs[k]?.map .emit := by
  induction bs generalizing k with
  | nil => simp
  | cons b bs ih =>
    cases k with
    | zero => rfl
    | succ k => exact ih k

/-- The odd events of paced bytes are the waits (R111). -/
theorem paced_getElem?_odd (us : Nat) (bs : List Byte) (k : Nat) :
    (paced us bs)[2 * k + 1]? = bs[k]?.map fun _ => .wait us := by
  induction bs generalizing k with
  | nil => simp
  | cons b bs ih =>
    cases k with
    | zero => rfl
    | succ k => exact ih k

theorem paced_emit_at {bs : List Byte} {k : Nat} (us : Nat) (h : k < bs.length) :
    (paced us bs)[2 * k]? = some (.emit bs[k]) := by
  rw [paced_getElem?_even, List.getElem?_eq_getElem h, Option.map_some]

theorem paced_wait_at {bs : List Byte} {k : Nat} (us : Nat) (h : k < bs.length) :
    (paced us bs)[2 * k + 1]? = some (.wait us) := by
  rw [paced_getElem?_odd, List.getElem?_eq_getElem h, Option.map_some]

/-! ### The bytes of the buffer -/

/-- `FB[0 .. c]`, what SENDBODY reads (R111). -/
def bodyBytes (s : State) : List Byte := (List.range (s.c + 1)).map (fbByte s)

@[simp] theorem length_bodyBytes (s : State) : (bodyBytes s).length = s.c + 1 := by simp [bodyBytes]

/-- A cell that has been written reads as what it holds (R16). -/
theorem fbByte_of_read? {s : State} {k : Nat} {v : Byte} (h : s.fb.read? k = some v) : fbByte s k = v := by
  rw [fbByte, h, Option.getD_some]

theorem bodyBytes_getElem?_of_read? {s : State} {k : Nat} {v : Byte} (hk : k ≤ s.c)
    (h : s.fb.read? k = some v) : (bodyBytes s)[k]? = some v := by
  rw [bodyBytes, List.getElem?_map, List.getElem?_range (Nat.lt_succ_of_le hk), Option.map_some,
    fbByte_of_read? h]

/-! ### Raw payload bytes under each DATA_DELAY (R11, R114) -/

theorem rawEvents_perByte {k : Cfg} (h : k.dataDelay = .perByte) (bs : List Byte) :
    rawEvents k bs = paced k.tByte bs := by rw [rawEvents, h]

theorem rawEvents_oncePerChunk {k : Cfg} (h : k.dataDelay = .oncePerChunk) (bs : List Byte) :
    rawEvents k bs = bs.map .emit ++ [.wait k.tByte] := by rw [rawEvents, h]

theorem rawEvents_noWait {k : Cfg} (h : k.dataDelay = .noWait) (bs : List Byte) :
    rawEvents k bs = bs.map .emit := by rw [rawEvents, h]

end Sys2Proof.Machine

namespace Sys2Proof
open Sys2Proof.Machine

/-- Settles O17: SENDTAIL is its four paced bytes, whatever FB and the cursor hold. -/
theorem sendTailAppendsTheTerminator : Obligations.SendTailAppendsTheTerminator := fun _ hf hr =>
  runInternal_go (op := sendTail) (stopped_of_unmarked hf hr) rfl

/-- Settles O16: the events are `FB[0 .. c]` paced, and a written cell reads as what it holds. -/
theorem sendBodyStreamsTheBuffer : Obligations.SendBodyStreamsTheBuffer := by
  intro s hf hr hc
  refine ⟨_, paced s.cfg.tByte (bodyBytes s), runInternal_go (stopped_of_unmarked hf hr) (sendBody_go hc), rfl,
    by simp, fun k hk => ?_⟩
  have hin : k < (bodyBytes s).length := by rw [length_bodyBytes]; omega
  refine ⟨⟨(bodyBytes s)[k], paced_emit_at _ hin, fun v hv => ?_⟩, paced_wait_at _ hin⟩
  have hread := bodyBytes_getElem?_of_read? hk hv
  rwa [List.getElem?_eq_getElem hin, Option.some_inj] at hread

/-- Settles O18: the events are `FB[0 .. c]` and the terminator, paced as one list of `c + 5` bytes. -/
theorem xmitSendsBodyAndTerminator : Obligations.XmitSendsBodyAndTerminator := by
  intro s hf hr hc
  have hlen : (bodyBytes s ++ termBytes s.cfg.term).length = s.c + 5 := by
    rw [List.length_append, length_bodyBytes]
    rfl
  refine ⟨_, paced s.cfg.tByte (bodyBytes s ++ termBytes s.cfg.term), bodyBytes s,
    runInternal_go (stopped_of_unmarked hf hr) (xmit_go hc), rfl, byteProjection_paced _ _,
    length_bodyBytes s, fun k v hk hv => bodyBytes_getElem?_of_read? hk hv, by rw [length_paced, hlen],
    fun k hk => ?_⟩
  rw [← hlen] at hk
  exact ⟨⟨_, paced_emit_at _ hk⟩, paced_wait_at _ hk⟩

/-- Settles O19: the payload bytes under each of the three delays. -/
theorem rawOutFollowsDataDelay : Obligations.RawOutFollowsDataDelay := by
  intro s data j0 n hf hr hin
  have hlen : ((data.drop j0).take n).length = n := by
    rw [List.length_take, List.length_drop]
    omega
  refine ⟨_, rawEvents s.cfg ((data.drop j0).take n),
    runInternal_go (stopped_of_unmarked hf hr) (rawOut_go s (by omega)), rfl, byteProjection_rawEvents _ _,
    fun hdelay => ?perByte, fun hdelay => ?oncePerChunk, fun hdelay => ?noWait⟩
  case perByte =>
    rw [rawEvents_perByte hdelay, length_paced, hlen]
    exact ⟨rfl, fun k hk => paced_wait_at _ (by rwa [hlen])⟩
  case oncePerChunk =>
    rw [rawEvents_oncePerChunk hdelay]
    have hemits : (((data.drop j0).take n).map Event.emit).length = n := by rw [List.length_map, hlen]
    refine ⟨by rw [List.length_append, hemits]; rfl, ?_⟩
    rw [List.getElem?_append_right hemits.le, hemits, Nat.sub_self]
    rfl
  case noWait => rw [rawEvents_noWait hdelay, List.length_map, hlen]

/-- Settles O20: the guards of SENDBODY and RAWOUT; XMIT begins with SENDBODY (R113). -/
theorem readsOutsideStopByName : Obligations.ReadsOutsideStopByName := by
  refine ⟨fun s hf hr hc => ?_, fun s data j0 n hf hr hpast hn => ?_⟩
  · have hs := stopped_of_unmarked hf hr
    exact ⟨runInternal_bad hs (sendBody_bad hc), runInternal_bad hs (xmit_bad hc)⟩
  · exact runInternal_bad (stopped_of_unmarked hf hr) (rawOut_bad s (by omega))

end Sys2Proof
end

section
/-!
The bytes a command puts on the wire, as a function of its operands and CFG that reads neither T_BYTE nor
DATA_DELAY (41_frame_transmitter R115, 00_scope R11).
-/

namespace Sys2Proof.Machine

/-- The outcome is a next state of `s`, and the byte projection of the events it has appended is `bytes`. -/
def PutsOnWire (s : State) (o : Host.Outcome State Fault Refusal) (bytes : List Byte) : Prop :=
  ∃ t es, o = .next t ∧ t.trace = s.trace ++ es ∧ byteProjection es = bytes

/-! ### What each command sends -/

/-- The bytes of one frame (R60). -/
def frameBytes (k : Cfg) (body : List Byte) : List Byte :=
  leadBytes k.lead ++ body ++ termBytes k.term

/-- The bytes of a frame that ends in a text: none when the text reaches CAP (R95, R175). -/
def textFrameBytes (k : Cfg) (body : List Byte) (text : TextSource) : List Byte :=
  let copied := (textOnWire text).take (remaining k (leadLen k.lead + body.length - 1))
  if leadLen k.lead + body.length + copied.length ≤ k.cap then frameBytes k (body ++ copied) else []

/-- The bytes MEM_WRITE sends: its sub-frames (R155), or none when it is refused (R151). -/
def memWriteBytes (k : Cfg) (type : Byte) (base : Word16) (data : List Byte) : List Byte :=
  if type = 0x5A#8 ∧ data.length ≤ k.lMax then
    (List.range (chunkCount k data.length)).flatMap (chunkBytes k base data)
  else []

/-- The bytes an instruction run as a command sends (R132 to R136, R150). -/
def commandBytes (k : Cfg) : Instr → List Byte
  | .drawText wa bs size fg bg x y text =>
    textFrameBytes k (0x11#8 :: [be1 (textFlags wa bs size), be2 fg, be2 bg, be2 x, be2 y].flatten) text
  | .drawFloat bs zf zm size fg bg inum fnum x y value =>
    frameBytes k (0x14#8 :: [be1 (floatFlags bs zf zm size), be2 fg, be2 bg, be1 inum, be1 fnum, be2 x,
      be2 y, be4 (twos32 value)].flatten)
  | .showIcon lib pic x y =>
    frameBytes k (0x23#8 :: [be2 (clampedX k x), be2 (clampedY k y), be1 (forceTop lib), be1 pic].flatten)
  | .directIcon x y addr =>
    frameBytes k (0x24#8 :: [be2 (clampedX k x), be2 (clampedY k y), be1 0x80#8, be2 addr].flatten)
  | .areaCopy cache xs ys xe ye x y =>
    frameBytes k (0x27#8 :: [be1 (forceTop cache), be2 xs, be2 ys, be2 xe, be2 ye, be2 x, be2 y].flatten)
  | .memWrite type base data => memWriteBytes k type base data
  | .memWriteFlash base data => memWriteBytes k 0xA5#8 base data
  | _ => []

/-- The bytes a command sends do not change with T_BYTE or DATA_DELAY (R11, R115). -/
theorem commandBytes_withWaits (k : Cfg) (us : Nat) (delay : DataDelay) (i : Instr) :
    commandBytes { k with tByte := us, dataDelay := delay } i = commandBytes k i := by
  cases i <;> rfl

/-! ### The commands send these bytes -/

/-- A command that sends a frame puts its lead byte, body and terminator on the wire (R60). -/
theorem putsOnWire_of_sendsFrame {s : State} {o : Host.Outcome State Fault Refusal} {body : List Byte}
    {v : Byte} (h : ∃ t, o = .next t ∧ SendsFrame s t body v) : PutsOnWire s o (frameBytes s.cfg body) := by
  obtain ⟨t, ht, hform, -, -⟩ := h
  exact ⟨t, _, ht, congrArg State.trace hform, byteProjection_paced _ _⟩

/-- A command that stops without an event has sent nothing (R175). -/
theorem putsOnWire_nil_of_stop {s t : State} {body : State → Flow} (ha : s.accepts = true)
    (hb : body (begun s) = .stop t) (ht : t.trace = s.trace) : PutsOnWire s (runCommand body s) [] :=
  ⟨t, [], runCommand_stop ha hb, by rw [ht, List.append_nil], rfl⟩

/-- BEGIN, writers, WS and XMIT, the shape of DRAW_TEXT: the frame is sent, or the text reaches CAP first. -/
theorem runCommand_textFrame_putsOnWire {s : State} (hr : Ready s) (op : Byte) (bss : List (List Byte))
    (text : TextSource) (hlen : bss.flatten.length ≤ 15) :
    PutsOnWire s (runCommand (runAll (beginFrame op :: (bss.map appendBytes ++ [ws text, xmit]))) s)
      (textFrameBytes s.cfg (op :: bss.flatten) text) := by
  have hcap := cap_of_valid hr.valid
  have ha := ready_accepts hr
  have hne : op :: bss.flatten ≠ [] := List.cons_ne_nil _ _
  have hbody : leadLen s.cfg.lead + (op :: bss.flatten).length ≤ s.cfg.cap := by
    rw [List.length_cons]
    omega
  have hbuild := runAll_build (s := begun s) op bss [ws text, xmit]
    (show leadLen s.cfg.lead + 1 + bss.flatten.length ≤ s.cfg.cap by omega)
  rw [textFrameBytes]
  split
  next hfit =>
    have htail := textTail_go (s := begun s) hne hr.lead hfit
    exact putsOnWire_of_sendsFrame ⟨_, runCommand_go ha (hbuild.trans htail), sendsFrame_sent hr.idle _ _⟩
  next hover =>
    obtain ⟨tail, hstop⟩ := textTail_overruns (s := begun s) hne hbody (Nat.lt_of_not_le hover)
    exact putsOnWire_nil_of_stop ha (hbuild.trans hstop) rfl

theorem byteProjection_flatMap {α : Type} (f : α → List Event) (xs : List α) :
    byteProjection (xs.flatMap f) = xs.flatMap fun x => byteProjection (f x) := by
  induction xs with
  | nil => rfl
  | cons x xs ih => rw [List.flatMap_cons, byteProjection_append, ih, List.flatMap_cons]

/-- The bytes of a sub-frame's events (R155). -/
@[simp] theorem byteProjection_chunkEvents (k : Cfg) (base : Word16) (data : List Byte) (idx : Nat) :
    byteProjection (chunkEvents k base data idx) = chunkBytes k base data idx := by
  simp [chunkEvents, chunkBytes, byteProjection_append]

/-- An admitted MEM_WRITE appends the events of its sub-frames in order (R150, R155). -/
theorem runCommand_memWriteRule_events {s : State} (hr : Ready s) {data : List Byte}
    (h : data.length ≤ s.cfg.lMax) (base : Word16) :
    ∃ t, runCommand (memWriteRule 0x5A#8 base data) s = .next t ∧ t.trace = s.trace ++
      (List.range (chunkCount s.cfg data.length)).flatMap (chunkEvents s.cfg base data) := by
  have hcap := cap_of_valid hr.valid
  obtain ⟨t, hloop, hform, -⟩ :=
    chunkLoop_go data data.length (slicerEntry 0x5A#8 base data.length (begun s))
      (chunkMax_of_valid hr.valid) (show leadLen s.cfg.lead + 4 ≤ s.cfg.cap by omega) hr.lead rfl
      (by simp [slicerEntry]) le_rfl
  have hevents : eventsLeft data (slicerEntry 0x5A#8 base data.length (begun s)) =
      (List.range (chunkCount s.cfg data.length)).flatMap (chunkEvents s.cfg base data) := by
    simp [eventsLeft, slicerEntry]
  refine ⟨_, runCommand_go (ready_accepts hr)
    ((memWriteRule_admitted (s := begun s) h base).trans hloop), ?_⟩
  rw [← hevents]
  exact congrArg State.trace hform

/-- MEM_WRITE with any type selector: refused, or all its sub-frames sent (R150, R151). -/
theorem runCommand_memWriteRule_putsOnWire {s : State} (hr : Ready s) (type : Byte) (base : Word16)
    (data : List Byte) :
    PutsOnWire s (runCommand (memWriteRule type base data) s) (memWriteBytes s.cfg type base data) := by
  have ha := ready_accepts hr
  by_cases htype : type = 0x5A#8
  · subst htype
    by_cases hlen : data.length ≤ s.cfg.lMax
    · obtain ⟨t, hrun, htrace⟩ := runCommand_memWriteRule_events hr hlen base
      rw [memWriteBytes, if_pos ⟨rfl, hlen⟩]
      exact ⟨t, _, hrun, htrace, by simp only [byteProjection_flatMap, byteProjection_chunkEvents]⟩
    · rw [memWriteBytes, if_neg fun h => hlen h.2]
      exact putsOnWire_nil_of_stop ha (memWriteRule_tooLong (s := begun s) (Nat.lt_of_not_le hlen) base) rfl
  · rw [memWriteBytes, if_neg fun h => htype h.1]
    exact putsOnWire_nil_of_stop ha (memWriteRule_wrongType htype base data (begun s)) rfl

/-- What a ready block sends for a command is `commandBytes` of its CFG. -/
theorem exec_putsOnWire {s : State} {i : Instr} (hi : isCommand i = true) (hr : Ready s) :
    PutsOnWire s (exec i s) (commandBytes s.cfg i) := by
  cases i with
  | drawText wa bs size fg bg x y text =>
    exact runCommand_textFrame_putsOnWire hr 0x11#8
      [be1 (textFlags wa bs size), be2 fg, be2 bg, be2 x, be2 y] text (by simp [be1, be2])
  | drawFloat bs zf zm size fg bg inum fnum x y value =>
    exact putsOnWire_of_sendsFrame (exec_drawFloat_sendsFrame hr bs zf zm size fg bg inum fnum x y value)
  | showIcon lib pic x y => exact putsOnWire_of_sendsFrame (exec_showIcon_sendsFrame hr lib pic x y)
  | directIcon x y addr => exact putsOnWire_of_sendsFrame (exec_directIcon_sendsFrame hr x y addr)
  | areaCopy cache xs ys xe ye x y =>
    exact putsOnWire_of_sendsFrame (exec_areaCopy_sendsFrame hr cache xs ys xe ye x y)
  | memWrite type base data => exact runCommand_memWriteRule_putsOnWire hr type base data
  | memWriteFlash base data => exact runCommand_memWriteRule_putsOnWire hr 0xA5#8 base data
  | _ => cases hi

end Sys2Proof.Machine

namespace Sys2Proof
open Sys2Proof.Machine

/-- Settles O38: both blocks send `commandBytes` of their CFG, which reads no wait parameter. -/
theorem bytesDoNotDependOnTheWaits : Obligations.BytesDoNotDependOnTheWaits := by
  intro s₁ s₂ i hi hr₁ hr₂ hcfg
  obtain ⟨t₁, es₁, hexec₁, htrace₁, hbytes₁⟩ := exec_putsOnWire hi hr₁
  obtain ⟨t₂, es₂, hexec₂, htrace₂, hbytes₂⟩ := exec_putsOnWire hi hr₂
  have hsame : commandBytes s₂.cfg i = commandBytes s₁.cfg i :=
    (congrArg (commandBytes · i) hcfg).trans (commandBytes_withWaits s₁.cfg _ _ i)
  exact ⟨t₁, t₂, es₁, es₂, hexec₁, hexec₂, htrace₁, htrace₂, by rw [hbytes₁, hbytes₂, hsame]⟩

end Sys2Proof
end

section
/-!
The frame statements of the drawing commands (42_command_encoders R132 to R139): the fields of each frame as
numbers, the text frame under either string bound, and the icon coordinates at the edge of the display.
-/

namespace Sys2Proof.Machine

/-! ### The text frame under either bound -/

/-- BEGIN, writers, WS and XMIT, the shape of DRAW_TEXT, send one frame when the copied text fits. -/
theorem runCommand_textFrame_fits {s : State} (hr : Ready s) (op : Byte) (bss : List (List Byte))
    (text : TextSource) (hfit : leadLen s.cfg.lead + (op :: bss.flatten).length +
      (textCopied s (op :: bss.flatten) text).length ≤ s.cfg.cap) :
    ∃ t, runCommand (runAll (beginFrame op :: (bss.map appendBytes ++ [ws text, xmit]))) s = .next t ∧
      SendsFrame s t (op :: bss.flatten ++ textCopied s (op :: bss.flatten) text)
        (statusAfterText (begun s) (op :: bss.flatten) text) := by
  have hlen : leadLen s.cfg.lead + 1 + bss.flatten.length ≤ s.cfg.cap := by
    rw [List.length_cons] at hfit
    omega
  have hbuild := runAll_build (s := begun s) op bss [ws text, xmit] hlen
  have htail := textTail_go (s := begun s) (List.cons_ne_nil _ _) hr.lead hfit
  exact ⟨_, runCommand_go (ready_accepts hr) (hbuild.trans htail), sendsFrame_sent hr.idle _ _⟩

/-- A text that reaches CAP stops the same statements before an event: the overrun is recorded at CAP and the
cursor stands where WS began (R95, R175). -/
theorem runCommand_textFrame_overruns {s : State} (hr : Ready s) (op : Byte) (bss : List (List Byte))
    (text : TextSource) (hlen : bss.flatten.length ≤ 15)
    (hover : s.cfg.cap < leadLen s.cfg.lead + (op :: bss.flatten).length +
      (textCopied s (op :: bss.flatten) text).length) :
    ∃ t, runCommand (runAll (beginFrame op :: (bss.map appendBytes ++ [ws text, xmit]))) s = .next t ∧
      t = { s with
        fb := t.fb, c := leadLen s.cfg.lead + bss.flatten.length, status := 0, phase := .busy
        fault := some (.overrun s.cfg.cap) } ∧
      ∀ j, j < leadLen s.cfg.lead → t.fb.read? j = s.fb.read? j := by
  have hcap := cap_of_valid hr.valid
  have hbody : leadLen s.cfg.lead + 1 + bss.flatten.length ≤ s.cfg.cap := by omega
  have hbuild := runAll_build (s := begun s) op bss [ws text, xmit] hbody
  obtain ⟨tail, hstop⟩ := textTail_overruns (s := begun s) (List.cons_ne_nil _ _)
    (by rw [List.length_cons]; exact (Nat.add_right_comm _ _ _).trans_le hbody) hover
  exact ⟨_, runCommand_stop (ready_accepts hr) (hbuild.trans hstop), rfl,
    fun j hj => Memory.read?_writeAll_outside _ _ (.inl hj)⟩

/-- Under Literal a text that fits behind the body is copied whole and STATUS is kept (R95). -/
theorem textCopied_literal_fits {s : State} (hliteral : s.cfg.stringBound = .literal) {body : List Byte}
    {text : TextSource} (h : leadLen s.cfg.lead + body.length + (textOnWire text).length ≤ s.cfg.cap) :
    textCopied s body text = textOnWire text ∧ statusAfterText s body text = s.status := by
  have hroom : (textOnWire text).length ≤ remaining s.cfg (leadLen s.cfg.lead + body.length - 1) := by
    rw [remaining, hliteral]
    show _ ≤ s.cfg.cap - _
    omega
  exact ⟨List.take_of_length_le hroom, if_neg (Nat.not_lt.2 hroom)⟩

/-- Under Literal the bytes copied of a longer text end exactly past the last cell: WS may copy one byte more
than fits behind its cursor (R95). -/
theorem textCopied_literal_overruns {s : State} (hliteral : s.cfg.stringBound = .literal) {body : List Byte}
    {text : TextSource} (hb : body ≠ []) (hbody : leadLen s.cfg.lead + body.length ≤ s.cfg.cap)
    (h : s.cfg.cap < leadLen s.cfg.lead + body.length + (textOnWire text).length) :
    s.cfg.cap < leadLen s.cfg.lead + body.length + (textCopied s body text).length := by
  have hpos := List.length_pos_iff.2 hb
  rw [textCopied, List.length_take, remaining, hliteral]
  show _ < _ + min (s.cfg.cap - _) _
  omega

/-- The fields of DRAW_TEXT that stand before its text (R61), as the pseudocode of R132 writes them. -/
def drawTextFields (wa bs : Bool) (size : Byte) (fg bg x y : Word16) : List (List Byte) :=
  [be1 (textFlags wa bs size), be2 fg, be2 bg, be2 x, be2 y]

/-- Ten bytes of a DRAW_TEXT frame stand before its text (R73). -/
theorem length_drawTextFields (wa bs : Bool) (size : Byte) (fg bg x y : Word16) :
    (0x11#8 :: (drawTextFields wa bs size fg bg x y).flatten).length = 10 := rfl

/-! ### The icon coordinates on the wire -/

/-- Two 16-bit fields behind the opcode stand at offsets 1 and 3 of the frame's bytes after the lead byte
(R60, R63, R64). -/
theorem frameBytes_coordinates (k : Cfg) (op : Byte) (x y : Word16) (bss : List (List Byte)) :
    let frame := frameBytes k (op :: (be2 x :: be2 y :: bss).flatten)
    (frame.drop (leadLen k.lead + 1)).take 2 = be2 x ∧
      (frame.drop (leadLen k.lead + 3)).take 2 = be2 y := by
  cases hlead : k.lead <;> simp [frameBytes, hlead, leadBytes, leadLen, be2]

/-- The bytes of SHOW_ICON and DIRECT_ICON begin with the opcode and the clamped coordinates (R131). -/
theorem commandBytes_icon {i : Instr} {x y : Word16}
    (hi : (∃ lib pic, i = .showIcon lib pic x y) ∨ ∃ addr, i = .directIcon x y addr) (k : Cfg) :
    isCommand i = true ∧ ∃ op bss, commandBytes k i =
      frameBytes k (op :: (be2 (clampedX k x) :: be2 (clampedY k y) :: bss).flatten) := by
  rcases hi with ⟨lib, pic, rfl⟩ | ⟨addr, rfl⟩
  · exact ⟨rfl, 0x23#8, [be1 (forceTop lib), be1 pic], rfl⟩
  · exact ⟨rfl, 0x24#8, [be1 0x80#8, be2 addr], rfl⟩

end Sys2Proof.Machine

namespace Sys2Proof
open Sys2Proof.Machine

/-- Settles O21: the flag byte read as a number, and the frame of R132. -/
theorem drawTextSendsItsFrame : Obligations.DrawTextSendsItsFrame := by
  intro s wa bs size fg bg x y text hr hsafe
  rw [← textFlags_eq]
  exact exec_drawText_sendsFrame hr hsafe wa bs size fg bg x y text

/-- Settles O22: a text fits behind the ten bytes of the body, or its copied bytes reach CAP. -/
theorem drawTextLiteralSendsOrStops : Obligations.DrawTextLiteralSendsOrStops := by
  intro s wa bs size fg bg x y text hr hliteral
  have hcap := cap_of_valid hr.valid
  have hten := length_drawTextFields wa bs size fg bg x y
  have hne := List.cons_ne_nil 0x11#8 (drawTextFields wa bs size fg bg x y).flatten
  refine ⟨fun hfits => ?_, fun hlong => ?_⟩
  · have hfit : leadLen s.cfg.lead + (0x11#8 :: (drawTextFields wa bs size fg bg x y).flatten).length +
        (textOnWire text).length ≤ s.cfg.cap := by omega
    obtain ⟨hwhole, hstatus⟩ := textCopied_literal_fits (s := begun s) hliteral hfit
    change textCopied s _ _ = _ at hwhole
    have hsends := runCommand_textFrame_fits hr 0x11#8 (drawTextFields wa bs size fg bg x y) text
      (by rwa [hwhole])
    rw [hwhole, hstatus] at hsends
    rw [← textFlags_eq]
    exact hsends
  · obtain ⟨t, hexec, hform, hlead⟩ := runCommand_textFrame_overruns hr 0x11#8
      (drawTextFields wa bs size fg bg x y) text (by rw [List.length_cons] at hten; omega)
      (textCopied_literal_overruns hliteral hne (by omega) (by omega))
    rw [Nat.add_comm 9]
    exact ⟨t, hexec, hform, fun j hj => hj.elim (hlead j)
      ((exec_touches (i := .drawText wa bs size fg bg x y text) hexec).1.keeps.outside j)⟩

/-- Settles O23: the flag byte read as a number, and the frame of R133. -/
theorem drawFloatSendsItsFrame : Obligations.DrawFloatSendsItsFrame := by
  intro s bs zf zm size fg bg inum fnum x y value hr
  rw [← floatFlags_eq]
  exact exec_drawFloat_sendsFrame hr bs zf zm size fg bg inum fnum x y value

/-- Settles O24: the clamp is a minimum, and the frame of R134. -/
theorem showIconSendsItsFrame : Obligations.ShowIconSendsItsFrame := by
  intro s lib pic x y hr
  rw [← clampedX_eq hr.valid, ← clampedY_eq hr.valid]
  exact exec_showIcon_sendsFrame hr lib pic x y

/-- Settles O25: the clamp is a minimum, and the frame of R135. -/
theorem directIconSendsItsFrame : Obligations.DirectIconSendsItsFrame := by
  intro s x y addr hr
  rw [← clampedX_eq hr.valid, ← clampedY_eq hr.valid]
  exact exec_directIcon_sendsFrame hr x y addr

/-- Settles O26: the frame of R136. -/
theorem areaCopySendsItsFrame : Obligations.AreaCopySendsItsFrame :=
  fun _ cache xs ys xe ye x y hr => exec_areaCopy_sendsFrame hr cache xs ys xe ye x y

/-- Settles O27: the coordinate fields hold the minimum with the last column and row. -/
theorem iconFieldsSaturate : Obligations.IconFieldsSaturate := by
  intro s i x y hr hi
  obtain ⟨hcommand, op, bss, hframe⟩ := commandBytes_icon hi s.cfg
  obtain ⟨t, es, hexec, htrace, hbytes⟩ := exec_putsOnWire hcommand hr
  obtain ⟨hx, hy⟩ := frameBytes_coordinates s.cfg op (clampedX s.cfg x) (clampedY s.cfg y) bss
  rw [← hframe, ← hbytes] at hx hy
  refine ⟨t, es, hexec, htrace, fun hedge => ?_, fun hedge => ?_⟩
  · rw [hx, clampedX_eq hr.valid, Nat.min_eq_right hedge]
  · rw [hy, clampedY_eq hr.valid, Nat.min_eq_right hedge]

end Sys2Proof
end

section
/-!
What a command does to the block as the host and the transport see it: the events it appends, STATUS, the phase
and the marks, as a function of its operands and CFG alone (42_command_encoders R138, 10_state R53).
-/

namespace Sys2Proof.Machine

/-- What is seen of a command once it has run or stopped. -/
structure Report where
  events : List Event
  status : Byte
  phase : Phase
  fault : Option FaultMark
  refused : Option RefusedMark

/-- The outcome is a next state of `s` in which the command has left the report `r`. -/
def Reports (s : State) (o : Host.Outcome State Fault Refusal) (r : Report) : Prop :=
  ∃ t, o = .next t ∧ t.trace = s.trace ++ r.events ∧ t.status = r.status ∧ t.phase = r.phase ∧
    t.fault = r.fault ∧ t.refused = r.refused

/-- The report of a command that completes (R130). -/
def completes (events : List Event) (status : Byte) : Report := ⟨events, status, .idle, none, none⟩

/-- The report of a command that stops before its first event (R175). -/
def stopsSilently (fault : Option FaultMark) (refused : Option RefusedMark) : Report :=
  ⟨[], 0#8, .busy, fault, refused⟩

/-! ### The report of each shape of command -/

/-- A command that sends a frame completes with the frame's bytes paced (R113). -/
theorem reports_of_sendsFrame {s : State} {k : Cfg} {o : Host.Outcome State Fault Refusal} {body : List Byte}
    {v : Byte} (hr : Ready s) (hk : s.cfg = k) (h : ∃ t, o = .next t ∧ SendsFrame s t body v) :
    Reports s o (completes (paced k.tByte (frameBytes k body)) v) := by
  subst hk
  obtain ⟨t, ht, hform, -, -⟩ := h
  exact ⟨t, ht, congrArg State.trace hform, congrArg State.status hform,
    (congrArg State.phase hform).trans hr.idle, (congrArg State.fault hform).trans hr.noFault,
    (congrArg State.refused hform).trans hr.noRefusal⟩

/-- SHOW_ICON and DIRECT_ICON: the clamped coordinates and their STATUS are read off CFG (R131). -/
theorem runCommand_clamped_reports (k : Cfg) (x y : Word16) (op : Byte)
    (bss : Word16 → Word16 → List (List Byte)) (hlen : ∀ x' y', (bss x' y').flatten.length ≤ 15) :
    ∃ r, ∀ s, Ready s → s.cfg = k → Reports s (runCommand (withClamped x y fun x' y' =>
      beginFrame op :: ((bss x' y').map appendBytes ++ [xmit])) s) r := by
  refine ⟨?report, fun s hr hk => ?reports⟩
  case reports =>
    have hsends := runCommand_clamped hr x y op bss hlen
    rw [hk] at hsends
    exact reports_of_sendsFrame hr hk hsends

/-- BEGIN, writers, WS and XMIT, the shape of DRAW_TEXT: whether the text fits is read off CFG (R95). -/
theorem runCommand_textFrame_reports (k : Cfg) (op : Byte) (bss : List (List Byte)) (text : TextSource)
    (hlen : bss.flatten.length ≤ 15) :
    ∃ r, ∀ s, Ready s → s.cfg = k → Reports s
      (runCommand (runAll (beginFrame op :: (bss.map appendBytes ++ [ws text, xmit]))) s) r := by
  by_cases hfit : leadLen k.lead + (op :: bss.flatten).length +
      ((textOnWire text).take (remaining k (leadLen k.lead + (op :: bss.flatten).length - 1))).length ≤ k.cap
  · refine ⟨?report, fun s hr hk => ?reports⟩
    case reports =>
      have hsends := runCommand_textFrame_fits hr op bss text (by rwa [textCopied, hk])
      rw [textCopied, statusAfterText, begun_cfg, begun_status, hk] at hsends
      exact reports_of_sendsFrame hr hk hsends
  · refine ⟨stopsSilently (some (.overrun k.cap)) none, fun s hr hk => ?_⟩
    obtain ⟨t, ht, hform, -⟩ := runCommand_textFrame_overruns hr op bss text hlen
      (by rw [textCopied, hk]; exact Nat.lt_of_not_le hfit)
    rw [hk] at hform
    exact ⟨t, ht, (congrArg State.trace hform).trans (List.append_nil _).symm, congrArg State.status hform,
      congrArg State.phase hform, congrArg State.fault hform, (congrArg State.refused hform).trans hr.noRefusal⟩

/-- A refused command (R151). -/
theorem runCommand_refuse_reports {s : State} (hr : Ready s) {body : State → Flow} {mark : RefusedMark}
    (hb : body (begun s) = refuse mark (begun s)) :
    Reports s (runCommand body s) (stopsSilently none (some mark)) :=
  ⟨_, runCommand_stop (ready_accepts hr) hb, (List.append_nil _).symm, rfl, rfl, hr.noFault, rfl⟩

/-- An admitted MEM_WRITE completes with the events of its sub-frames and STATUS 0 (R150). -/
theorem runCommand_memWriteRule_completes {s : State} (hr : Ready s) {data : List Byte}
    (h : data.length ≤ s.cfg.lMax) (base : Word16) :
    Reports s (runCommand (memWriteRule 0x5A#8 base data) s)
      (completes ((List.range (chunkCount s.cfg data.length)).flatMap (chunkEvents s.cfg base data)) 0#8) := by
  have hcap := cap_of_valid hr.valid
  obtain ⟨t, hloop, hform, -⟩ :=
    chunkLoop_go data data.length (slicerEntry 0x5A#8 base data.length (begun s))
      (chunkMax_of_valid hr.valid) (show leadLen s.cfg.lead + 4 ≤ s.cfg.cap by omega) hr.lead rfl
      (by simp [slicerEntry]) le_rfl
  have hevents : eventsLeft data (slicerEntry 0x5A#8 base data.length (begun s)) =
      (List.range (chunkCount s.cfg data.length)).flatMap (chunkEvents s.cfg base data) := by
    simp [eventsLeft, slicerEntry]
  rw [hevents] at hform
  exact ⟨_, runCommand_go (ready_accepts hr) ((memWriteRule_admitted (s := begun s) h base).trans hloop),
    congrArg State.trace hform, congrArg State.status hform, rfl,
    (congrArg State.fault hform).trans hr.noFault, (congrArg State.refused hform).trans hr.noRefusal⟩

/-- MEM_WRITE with any type selector: whether it is refused is read off its operands and CFG (R151, R174). -/
theorem runCommand_memWriteRule_reports (k : Cfg) (type : Byte) (base : Word16) (data : List Byte) :
    ∃ r, ∀ s, Ready s → s.cfg = k → Reports s (runCommand (memWriteRule type base data) s) r := by
  by_cases htype : type = 0x5A#8
  · subst htype
    by_cases hlen : data.length ≤ k.lMax
    · refine ⟨?report, fun s hr hk => ?reports⟩
      case reports =>
        have hreports := runCommand_memWriteRule_completes hr (hk ▸ hlen) base
        rw [hk] at hreports
        exact hreports
    · exact ⟨_, fun s hr hk => runCommand_refuse_reports hr
        (memWriteRule_tooLong (s := begun s) (hk ▸ Nat.lt_of_not_le hlen) base)⟩
  · exact ⟨_, fun s hr _ => runCommand_refuse_reports hr (memWriteRule_wrongType htype base data (begun s))⟩

/-- Every ready block of one CFG leaves the same report of a command (R138). -/
theorem exec_reports (k : Cfg) {i : Instr} (hi : isCommand i = true) :
    ∃ r, ∀ s, Ready s → s.cfg = k → Reports s (exec i s) r := by
  cases i with
  | drawText wa bs size fg bg x y text =>
    exact runCommand_textFrame_reports k 0x11#8 (drawTextFields wa bs size fg bg x y) text
      (by simp [drawTextFields, be1, be2])
  | drawFloat bs zf zm size fg bg inum fnum x y value =>
    exact ⟨_, fun s hr hk => reports_of_sendsFrame hr hk
      (exec_drawFloat_sendsFrame hr bs zf zm size fg bg inum fnum x y value)⟩
  | showIcon lib pic x y =>
    exact runCommand_clamped_reports k x y 0x23#8
      (fun x' y' => [be2 x', be2 y', be1 (forceTop lib), be1 pic]) fun _ _ => by simp [be1, be2]
  | directIcon x y addr =>
    exact runCommand_clamped_reports k x y 0x24#8
      (fun x' y' => [be2 x', be2 y', be1 0x80#8, be2 addr]) fun _ _ => by simp [be1, be2]
  | areaCopy cache xs ys xe ye x y =>
    exact ⟨_, fun s hr hk => reports_of_sendsFrame hr hk
      (exec_areaCopy_sendsFrame hr cache xs ys xe ye x y)⟩
  | memWrite type base data => exact runCommand_memWriteRule_reports k type base data
  | memWriteFlash base data => exact runCommand_memWriteRule_reports k 0xA5#8 base data
  | _ => cases hi

end Sys2Proof.Machine

namespace Sys2Proof
open Sys2Proof.Machine

/-- Settles O37: both blocks leave the one report that the command and their CFG determine. -/
theorem noStateLeaksIntoTheTrace : Obligations.NoStateLeaksIntoTheTrace := by
  intro s₁ s₂ i hi hr₁ hr₂ hcfg
  obtain ⟨r, hreports⟩ := exec_reports s₁.cfg hi
  obtain ⟨t₁, hexec₁, htrace₁, hstatus₁, hphase₁, hfault₁, hrefused₁⟩ := hreports s₁ hr₁ rfl
  obtain ⟨t₂, hexec₂, htrace₂, hstatus₂, hphase₂, hfault₂, hrefused₂⟩ := hreports s₂ hr₂ hcfg.symm
  exact ⟨t₁, t₂, r.events, hexec₁, hexec₂, htrace₁, htrace₂, hstatus₁.trans hstatus₂.symm,
    hphase₁.trans hphase₂.symm, hfault₁.trans hfault₂.symm, hrefused₁.trans hrefused₂.symm⟩

end Sys2Proof
end

section
/-!
The chunked memory writer as a command (43_chunked_memory_writer): its refusals, the empty payload, what the loop
leaves in the block, and the sizes and bytes of its sub-frames.
-/

namespace Sys2Proof.Machine

/-! ### Before the loop -/

/-- An idle unmarked block accepts (R194). -/
theorem accepts_of_idle_unmarked {s : State} (hp : s.phase = .idle) (hf : s.fault = none)
    (hr : s.refused = none) : s.accepts = true := (State.accepts_iff s).2 ⟨hp, hf, hr⟩

/-- An accepted MEM_WRITE with a wrong type selector ends at its mark (R151, R175). -/
theorem runCommand_memWriteRule_wrongType {s : State} (ha : s.accepts = true) {type : Byte}
    (h : type ≠ 0x5A#8) (base : Word16) (data : List Byte) :
    runCommand (memWriteRule type base data) s =
      .next { s with phase := .busy, status := 0, refused := some .rfMemType } :=
  runCommand_stop ha (memWriteRule_wrongType h base data (begun s))

/-- An accepted MEM_WRITE with too long a payload ends at its mark (R151, R175). -/
theorem runCommand_memWriteRule_tooLong {s : State} (ha : s.accepts = true) {data : List Byte}
    (h : s.cfg.lMax < data.length) (base : Word16) :
    runCommand (memWriteRule 0x5A#8 base data) s =
      .next { s with phase := .busy, status := 0, refused := some .rfLength } :=
  runCommand_stop ha (memWriteRule_tooLong (s := begun s) h base)

/-- The loop ends when no payload byte is left (R150). -/
theorem chunkLoop_done (data : List Byte) (fuel : Nat) {s : State} (h : s.sl.rem = 0) :
    chunkLoop data fuel s = .go s := by
  cases fuel <;> exact if_pos h

/-- At the entry of the loop every sub-frame of the payload is left to send. -/
theorem eventsLeft_slicerEntry (data : List Byte) (type : Byte) (base : Word16) (s : State) :
    eventsLeft data (slicerEntry type base data.length s) =
      (List.range (chunkCount s.cfg data.length)).flatMap (chunkEvents s.cfg base data) := by
  simp [eventsLeft, slicerEntry]

/-! ### Count and sizes of the chunks (R152, R156) -/

/-- `ceil(L / C)` is the least number of chunks that hold the payload. -/
theorem chunkCount_le_iff {k : Cfg} (hC : 1 ≤ k.chunkMax) (len n : Nat) :
    chunkCount k len ≤ n ↔ len ≤ n * k.chunkMax := by
  rw [chunkCount, ← Nat.ceilDiv_eq_add_pred_div, ceilDiv_le_iff_le_mul hC, Nat.mul_comm]

theorem le_chunkCount_mul {k : Cfg} (hC : 1 ≤ k.chunkMax) (len : Nat) :
    len ≤ chunkCount k len * k.chunkMax := (chunkCount_le_iff hC len _).1 le_rfl

theorem chunkCount_pos {k : Cfg} (hC : 1 ≤ k.chunkMax) {len : Nat} (h : 0 < len) :
    0 < chunkCount k len := by
  have hzero := chunkCount_le_iff hC len 0
  omega

/-- One chunk less than `ceil(L / C)` does not hold the payload. -/
theorem pred_chunkCount_mul_lt {k : Cfg} (hC : 1 ≤ k.chunkMax) {len : Nat} (h : 0 < len) :
    (chunkCount k len - 1) * k.chunkMax < len := by
  have hpos := chunkCount_pos hC h
  have hleast := chunkCount_le_iff hC len (chunkCount k len - 1)
  omega

/-- The size of chunk `idx` of a payload of `len` bytes (R152). -/
def chunkSize (k : Cfg) (len idx : Nat) : Nat := min k.chunkMax (len - idx * k.chunkMax)

@[simp] theorem length_chunkData (k : Cfg) (data : List Byte) (idx : Nat) :
    (chunkData k data idx).length = chunkSize k data.length idx := by
  simp [chunkData, chunkSize]

/-- A chunk takes its size from its offset on (R154). -/
theorem take_chunkSize (k : Cfg) (data : List Byte) (idx : Nat) :
    (data.drop (idx * k.chunkMax)).take (chunkSize k data.length idx) = chunkData k data idx := by
  rw [chunkData, chunkSize, ← List.length_drop, ← List.take_eq_take_min]

/-- Every chunk but the last is full (R152). -/
theorem chunkSize_full {k : Cfg} (hC : 1 ≤ k.chunkMax) {len idx : Nat} (h : idx + 1 < chunkCount k len) :
    chunkSize k len idx = k.chunkMax := by
  have hnot := (chunkCount_le_iff hC len (idx + 1)).not.1 (Nat.not_le.2 h)
  rw [Nat.succ_mul] at hnot
  exact Nat.min_eq_left (by omega)

/-- The last chunk holds what is left (R152). -/
theorem chunkSize_last {k : Cfg} (hC : 1 ≤ k.chunkMax) {len : Nat} (h : 0 < len) :
    chunkSize k len (chunkCount k len - 1) = len - (chunkCount k len - 1) * k.chunkMax := by
  have hall := le_chunkCount_mul hC len
  have hsucc : chunkCount k len - 1 + 1 = chunkCount k len := Nat.sub_add_cancel (chunkCount_pos hC h)
  rw [← hsucc, Nat.succ_mul] at hall
  exact Nat.min_eq_right (by omega)

/-- The first `n` chunks hold `n` times C bytes, or the whole payload. -/
theorem sum_chunkSizes (k : Cfg) (len n : Nat) :
    ((List.range n).map (chunkSize k len)).sum = min (n * k.chunkMax) len := by
  induction n with
  | zero => simp
  | succ n ih =>
    rw [List.range_succ, List.map_append, List.sum_append, ih, Nat.succ_mul]
    simp only [List.map_cons, List.map_nil, List.sum_singleton, chunkSize]
    omega

/-! ### The bytes of the sub-frames (R155) -/

theorem length_leadBytes (l : Lead) : (leadBytes l).length = leadLen l := by cases l <;> rfl

/-- A sub-frame is eight bytes and the lead byte longer than its chunk. -/
theorem length_chunkBytes (k : Cfg) (base : Word16) (data : List Byte) (idx : Nat) :
    (chunkBytes k base data idx).length = 8 + leadLen k.lead + chunkSize k data.length idx := by
  simp only [chunkBytes, chunkHeader, List.length_append, length_leadBytes, length_chunkData]
  simp only [be2, termBytes, List.length_cons, List.length_nil]
  omega

/-- The bytes of the first `n` sub-frames, counted. -/
theorem length_flatMap_chunkBytes (k : Cfg) (base : Word16) (data : List Byte) (n : Nat) :
    ((List.range n).flatMap (chunkBytes k base data)).length =
      n * (8 + leadLen k.lead) + min (n * k.chunkMax) data.length := by
  rw [List.length_flatMap, ← sum_chunkSizes]
  simp only [length_chunkBytes, List.sum_map_add, List.map_const', List.sum_replicate, List.length_range,
    smul_eq_mul]

/-- A sub-frame is the encoder's frame of a memory write of its chunk (R60, R66). -/
theorem encodeFrame_chunk (k : Cfg) (base : Word16) (data : List Byte) (idx : Nat) :
    encodeFrame k (.memWrite 0x5A#8 (BitVec.ofNat 16 (base.toNat + idx * k.chunkMax))
      (chunkData k data idx)) = some (chunkBytes k base data idx) := by
  simp [encodeFrame, encode, chunkBytes, chunkHeader]

/-- An admitted MEM_WRITE puts its sub-frames on the wire (R150, R155). -/
theorem exec_memWrite_putsOnWire {s : State} (hr : Ready s) {data : List Byte}
    (h : data.length ≤ s.cfg.lMax) (base : Word16) :
    PutsOnWire s (exec (.memWrite 0x5A#8 base data) s)
      ((List.range (chunkCount s.cfg data.length)).flatMap (chunkBytes s.cfg base data)) := by
  have hwire := exec_putsOnWire (i := .memWrite 0x5A#8 base data) rfl hr
  rwa [commandBytes, memWriteBytes, if_pos ⟨rfl, h⟩] at hwire

end Sys2Proof.Machine

namespace Sys2Proof
open Sys2Proof.Machine

/-- Settles O28: the loop from its entry registers, with every sub-frame left to send, inside the envelope. -/
theorem memWriteSendsItsSubFrames : Obligations.MemWriteSendsItsSubFrames := by
  intro s base data hr hlen
  have hcap := cap_of_valid hr.valid
  obtain ⟨t, hloop, hform, htype, hbase, hrem, hidx, -, hlast, -, -, hout⟩ :=
    chunkLoop_go data data.length (slicerEntry 0x5A#8 base data.length (begun s))
      (chunkMax_of_valid hr.valid) (show leadLen s.cfg.lead + 4 ≤ s.cfg.cap by omega) hr.lead rfl
      (by simp [slicerEntry]) le_rfl
  have hcount : t.sl.idx = chunkCount s.cfg data.length := hidx.trans (Nat.zero_add _)
  rw [eventsLeft_slicerEntry] at hform
  rw [hcount] at hlast
  refine ⟨t.setPhase .idle,
    runCommand_go (ready_accepts hr) ((memWriteRule_admitted (s := begun s) hlen base).trans hloop),
    ?_, htype, hbase, hrem, hcount, fun hne => hlast (List.length_pos_iff.2 hne), hout⟩
  calc t.setPhase .idle
      = { s with fb := t.fb, c := t.c, sl := t.sl, status := 0, phase := .idle, trace := s.trace ++
          (List.range (chunkCount s.cfg data.length)).flatMap (chunkEvents s.cfg base data) } :=
        congrArg (State.setPhase · .idle) hform
    _ = _ := by rw [← hr.idle]; rfl

/-- Settles O29: the sizes are the lengths of the chunks, and they add up to the whole payload. -/
theorem subFramesCoverThePayload : Obligations.SubFramesCoverThePayload := by
  intro s base data hr hlen hne
  have hC := chunkMax_of_valid hr.valid
  have hpos := List.length_pos_iff.2 hne
  have hall := le_chunkCount_mul hC data.length
  have hK := chunkCount_pos hC hpos
  obtain ⟨t, es, hexec, htrace, hbytes⟩ := exec_memWrite_putsOnWire hr hlen base
  refine ⟨t, es, (List.range (chunkCount s.cfg data.length)).map (chunkSize s.cfg data.length),
    hexec, htrace, ?bytes, ?_⟩
  case bytes =>
    rw [hbytes, List.length_map, List.length_range]
    refine List.flatMap_congr fun k hk => ?_
    simp only [List.getElem?_map, List.getElem?_range (List.mem_range.1 hk), Option.map_some,
      Option.getD_some, take_chunkSize]
    rfl
  rw [List.length_map, List.length_range]
  refine ⟨pred_chunkCount_mul_lt hC hpos, hall, fun k hk => ?full, ?last, ?sum, ?count⟩
  case full =>
    rw [List.getElem?_map, List.getElem?_range (by omega), Option.map_some, chunkSize_full hC hk]
  case last =>
    rw [List.getElem?_map, List.getElem?_range (by omega), Option.map_some, chunkSize_last hC hpos]
  case sum => rw [sum_chunkSizes, Nat.min_eq_right hall]
  case count => rw [hbytes, length_flatMap_chunkBytes, Nat.min_eq_right hall]

/-- Settles O45: the frames are the bytes of the sub-frames, each the encoder's frame of its chunk. -/
theorem subFramesAreEncodedChunks : Obligations.SubFramesAreEncodedChunks := by
  intro s base data hr hlen
  obtain ⟨t, es, hexec, htrace, hbytes⟩ := exec_memWrite_putsOnWire hr hlen base
  refine ⟨t, (List.range (chunkCount s.cfg data.length)).map (chunkBytes s.cfg base data), es, hexec,
    htrace, hbytes.trans List.flatMap_def, by simp, fun k hk => ?_⟩
  rw [encodeFrame_chunk, List.getElem_map, List.getElem_range]

/-- Settles O30: the empty payload is within LMAX whatever LMAX is, and the loop ends at its entry. -/
theorem emptyPayloadSendsNothing : Obligations.EmptyPayloadSendsNothing := by
  intro s base hp hf hr
  have hgo : memWriteRule 0x5A#8 base [] (begun s) = .go (slicerEntry 0x5A#8 base 0 (begun s)) :=
    (memWriteRule_admitted (Nat.zero_le _) base).trans (chunkLoop_done [] 0 rfl)
  refine (runCommand_go (accepts_of_idle_unmarked hp hf hr) hgo).trans ?_
  rw [← hp]
  rfl

/-- Settles O31: the guards of MEM_WRITE; MEM_WRITE_FLASH is the type selector 0xA5. -/
theorem memWriteRefusalsSendNothing : Obligations.MemWriteRefusalsSendNothing := by
  intro s type base data hp hf hr
  have ha := accepts_of_idle_unmarked hp hf hr
  exact ⟨fun htype => runCommand_memWriteRule_wrongType ha htype base data,
    fun hlong => runCommand_memWriteRule_tooLong ha hlong base,
    runCommand_memWriteRule_wrongType (type := 0xA5#8) ha (by decide) base data⟩

end Sys2Proof
end

section
/-!
Reset, the command port and the step (70_reset_and_hazards R190 to R194): the values reset gives, when a step
accepts, and how an accepted command leaves a ready block with STRING_BOUND = Safe.
-/

namespace Sys2Proof.Machine

/-! ### Reset -/

/-- The bound R13 puts on CAP, by the kind of LEAD. -/
theorem leadLen_le_cap_iff (k : Cfg) :
    16 + leadLen k.lead ≤ k.cap ↔ k.lead = .none ∧ 16 ≤ k.cap ∨ k.lead ≠ .none ∧ 17 ≤ k.cap := by
  cases k.lead <;> simp [leadLen]

/-- Reset writes the lead byte (R190). -/
theorem resetFb_read?_lead {k : Cfg} {h : Byte} (hlead : k.lead = .header h) (hcap : 0 < k.cap) :
    (resetFb k).read? 0 = some h := by
  simp [resetFb, hlead, hcap, Memory.read?_cons]

/-- A valid configuration has room for the lead byte, so reset puts it in place (R13, R22). -/
theorem leadHeld_resetWith {k : Cfg} (hv : cfgValid k = true) : leadHeld (State.resetWith k) = true :=
  (leadHeld_iff _).2 fun _ hlead => resetFb_read?_lead hlead (by have := cap_of_valid hv; omega)

/-- The model's own configuration meets R13, whatever its OPEN parameters are (log 1). -/
theorem cfgValid_configCfg : cfgValid Config.cfg = true :=
  (cfgValid_iff _).2 ⟨Nat.le_add_left 16 _, by decide⟩

/-- The block as reset is not refused (R190). -/
theorem reset_refused : State.reset.refused = none :=
  (State.resetWith_refused _).trans (if_pos cfgValid_configCfg)

/-- Reset of any configuration meets the invariant: FB holds at most the lead byte, and the only mark there can
be is RfConfig. -/
theorem inv_resetWith (k : Cfg) : Inv (State.resetWith k) where
  canonical := resetFb_wf k
  inBuffer := resetFb_below k
  cursor := Nat.zero_le _
  reserved := by simp
  lead := leadHeld_resetWith
  oneMark := .inl rfl
  config := by cases hv : cfgValid k <;> simp [hv]
  busy := by cases hv : cfgValid k <;> simp [hv]
  overrun := by simp

/-! ### A ready block after a command -/

/-- Readiness looks at the phase, the marks, CFG and the lead cells only. -/
theorem ready_of_kept {s t : State} (hr : Ready s) (hphase : t.phase = s.phase) (hfault : t.fault = s.fault)
    (hrefused : t.refused = s.refused) (hcfg : t.cfg = s.cfg)
    (hcells : ∀ j, j < leadLen s.cfg.lead → t.fb.read? j = s.fb.read? j) : Ready t where
  idle := hphase.trans hr.idle
  noFault := hfault.trans hr.noFault
  noRefusal := hrefused.trans hr.noRefusal
  valid := hcfg ▸ hr.valid
  lead := leadHeld_of_lead_cells hcfg hcells hr.lead

theorem ready_setPort {s : State} (hr : Ready s) (cs : List Command) : Ready (s.setPort cs) :=
  ready_of_kept hr rfl rfl rfl rfl fun _ _ => rfl

/-- Sending a frame leaves a ready block ready. -/
theorem ready_of_sendsFrame {s t : State} {body : List Byte} {v : Byte} (hr : Ready s)
    (h : SendsFrame s t body v) : Ready t := by
  obtain ⟨hform, -, hout⟩ := h
  exact ready_of_kept hr (congrArg State.phase hform :) (congrArg State.fault hform :)
    (congrArg State.refused hform :) (congrArg State.cfg hform :) fun j hj => hout j (.inl hj)

/-- The refusal mark MEM_WRITE can record is told by its type selector (R151, R174). -/
def memWriteRefusal (type : Byte) : RefusedMark := if type = 0x5A#8 then .rfLength else .rfMemType

/-- MEM_WRITE with any type selector completes or is refused (R150, R151). -/
theorem runCommand_memWriteRule_ready_or_refused {s : State} (hr : Ready s) (type : Byte) (base : Word16)
    (data : List Byte) :
    (∃ t, runCommand (memWriteRule type base data) s = .next t ∧ Ready t) ∨
    runCommand (memWriteRule type base data) s =
      .next { s with phase := .busy, status := 0, refused := some (memWriteRefusal type) } := by
  have ha := ready_accepts hr
  by_cases htype : type = 0x5A#8
  · subst htype
    by_cases hlen : data.length ≤ s.cfg.lMax
    · obtain ⟨t, hexec, hform, -, -, -, -, -, hout⟩ := memWriteSendsItsSubFrames s base data hr hlen
      exact .inl ⟨t, hexec, ready_of_kept hr (congrArg State.phase hform :) (congrArg State.fault hform :)
        (congrArg State.refused hform :) (congrArg State.cfg hform :) fun j hj => hout j (.inl hj)⟩
    · exact .inr (runCommand_memWriteRule_tooLong ha (Nat.lt_of_not_le hlen) base)
  · rw [memWriteRefusal, if_neg htype]
    exact .inr (runCommand_memWriteRule_wrongType ha htype base data)

/-- With STRING_BOUND = Safe a command record run from a ready block completes, or is a refused memory write
(R97, R151, R194). -/
theorem exec_commandInstr_ready_or_refused {s : State} (hr : Ready s) (hsafe : s.cfg.stringBound = .safe)
    (cmd : Command) :
    (∃ t, exec (commandInstr cmd) s = .next t ∧ Ready t) ∨
    ∃ type base data, cmd = .memWrite type base data ∧ exec (commandInstr cmd) s =
      .next { s with phase := .busy, status := 0, refused := some (memWriteRefusal type) } := by
  have drawing (h : isDrawing (commandInstr cmd) = true) :
      ∃ t, exec (commandInstr cmd) s = .next t ∧ Ready t := by
    obtain ⟨t, body, v, hexec, hsends, -⟩ := exec_drawing_sendsEncoding h hr hsafe
    exact ⟨t, hexec, ready_of_sendsFrame hr hsends⟩
  cases cmd with
  | memWrite type base data =>
    rw [exec_commandInstr_memWrite]
    exact (runCommand_memWriteRule_ready_or_refused hr type base data).imp_right
      fun h => ⟨type, base, data, rfl, h⟩
  | _ => exact .inl (drawing rfl)

end Sys2Proof.Machine

namespace Sys2Proof
open Sys2Proof.Machine

/-- Settles O6: the step is exec of the oldest command at the block without it, which completes or refuses; the
frame of an instruction gives the port, CFG and the trace. -/
theorem acceptedCommandCompletesOrIsRefused : Obligations.AcceptedCommandCompletesOrIsRefused := by
  intro s cmd rest hr hsafe hp
  have hstep := step_accepted hp (ready_accepts hr)
  rcases exec_commandInstr_ready_or_refused (ready_setPort hr rest) hsafe cmd with
    ⟨t, hexec, hready⟩ | ⟨type, base, data, rfl, hexec⟩
  · obtain ⟨hcfg, hport, htrace, -⟩ := everyInstructionKeepsItsFrame _ _ _ hexec
    exact ⟨t, hstep.trans hexec, hport, hready.noFault, hcfg, .inl ⟨hready, htrace⟩⟩
  · exact ⟨_, hstep.trans hexec, rfl, hr.noFault, rfl, .inr ⟨rfl, rfl, type, base, data, rfl, rfl⟩⟩

/-- Settles O1: the fields are those of the reset record, and R13 written out is the validity check. -/
theorem resetPutsEveryFieldToItsValue : Obligations.ResetPutsEveryFieldToItsValue := by
  intro k
  rw [← leadLen_le_cap_iff, ← cfgValid_iff]
  refine ⟨rfl, rfl, rfl, rfl, rfl, rfl, fun h hlead hcap => ?lead, fun hv => ?valid, fun hv => ?invalid⟩
  case lead => exact fbByte_of_read? (resetFb_read?_lead hlead hcap)
  case valid => rw [State.resetWith_refused, if_pos hv]
  case invalid => rw [State.resetWith_refused, if_neg hv]

/-- Settles O3: the conditions of R194 are those under which a block accepts. -/
theorem stepRunsTheIssuedCommand : Obligations.StepRunsTheIssuedCommand :=
  fun _ _ _ hp hphase hfault hrefused => step_accepted hp (accepts_of_idle_unmarked hphase hfault hrefused)

/-- Settles O2: nothing stands on the port after reset; a command issued is alone there, and the block as reset
accepts it. -/
theorem resetBlockWaitsForACommand : Obligations.ResetBlockWaitsForACommand :=
  ⟨step_noRequest rfl, fun cmd =>
    stepRunsTheIssuedCommand (issue cmd State.reset) cmd [] rfl rfl rfl reset_refused⟩

/-- Settles O4: a block that is Busy or marked does not accept, and one with an empty port has nothing to run. -/
theorem stepHoldsRequests : Obligations.StepHoldsRequests := by
  rintro s (hbusy | hfault | hrefused | hport)
  · exact step_held (by simp [State.accepts, hbusy])
  · exact step_held (accepts_of_stopped ((State.stopped_iff s).2 (.inl hfault)))
  · exact step_held (accepts_of_stopped ((State.stopped_iff s).2 (.inr hrefused)))
  · exact step_noRequest hport

/-- Settles O39: reset meets the invariant for every configuration, the model's own among them. -/
theorem resetMeetsTheInvariant : Obligations.ResetMeetsTheInvariant :=
  ⟨inv_resetWith, inv_resetWith Config.cfg⟩

end Sys2Proof
end
